-- ==== Sys2Proof/Word.lean ====
section
/-! DEFINITION. The word types of the THRAR core (00_scope.md R6, R7). Every value is unsigned (R7); no rule reads one as signed. -/

namespace Sys2Proof

/-- A register, MAR, CIR or instruction word: 16 bits (R6, R20, R27, R28). -/
abbrev Word := BitVec 16

/-- One byte of Memory, the addressable unit (R6). -/
abbrev Byte := BitVec 8

/-- The index of a general register, 0 to 15 (R20, R71). -/
abbrev RegIdx := Fin 16

end Sys2Proof
end

