-- ==== Sys2Proof/Config.lean ====
section
/-! DEFINITION. The parameters of the spec as plain data (00_scope.md R6). Their default values stand in Machine/Defaults.lean. Each
setting the spec gives a parameter is a constructor here; the machine carries one value of Params and no step changes it (log 1). -/

namespace Sys2Proof

/-- ADDR_OVERFLOW (R42, D4): what becomes of a computed address above 0xFFFF. -/
inductive AddrOverflow where
  /-- It is taken mod 2^16. -/
  | wrap
  /-- It is the model fault AddrOverflow. -/
  | fault
  deriving DecidableEq, Repr

/-- An operation that OP14_MAP gives to a slot of primary opcode 14 (R150). -/
inductive Op14Op where
  /-- R151. -/
  | and
  /-- R152. -/
  | orr
  /-- R153. -/
  | xor
  /-- R154. -/
  | not
  /-- R155. -/
  | ldb
  /-- R156. -/
  | stb
  /-- R158: an operation the source does not name. -/
  | unlisted
  deriving DecidableEq, Repr

/-- OP14_UNLISTED (R158, D10): what an unlisted slot does. -/
inductive Op14Unlisted where
  /-- The model gives the word no meaning. -/
  | refuse
  /-- No state change and no trace event. -/
  | nop
  deriving DecidableEq, Repr

/-- STUB_POLICY (R140, R141, R170, D11): what BRANCH0, BRANCH1 and INT do. -/
inductive StubPolicy where
  /-- An Unimplemented trace event and no other change. -/
  | nop
  /-- The model gives the word no meaning. -/
  | refuse
  deriving DecidableEq, Repr

/-- The parameters a model takes (R6). INIT_MEM, the remaining one, is the argument of State.construct. -/
structure Params where
  /-- MEM_SIZE: the Memory holds the bytes 0 to memSize - 1 (R41, D5). -/
  memSize : Nat
  /-- ADDR_OVERFLOW (R42, D4). -/
  addrOverflow : AddrOverflow
  /-- OP14_MAP: slot to operation (R150, D9). -/
  op14Map : Vector Op14Op 8
  /-- OP14_UNLISTED (R158, D10). -/
  op14Unlisted : Op14Unlisted
  /-- STUB_POLICY (D11). -/
  stubPolicy : StubPolicy
  /-- HALT_ON_STOP, read by the host's run loop alone (R89, D12, D20). -/
  haltOnStop : Bool
  deriving DecidableEq, Repr

end Sys2Proof
end

