-- ==== Sys2Proof/Syntax.lean ====
section
/-! DEFINITION. The instructions: one constructor per row of spec/opcode_table.json (30_encoding.md R72, R73, R75). Every field has
exactly the width the format gives it (R62 to R70), so every term is an instruction some word encodes. -/

namespace Sys2Proof

/-- An instruction with its operand fields. `d`, `n`, `m`, `a` are the fields rD, rN, rM, rA. CIR[11], the one bit the decoder ignores
(under primary opcode 14, R69), is not kept. The eight constructors of primary opcode 14 stand for the slots 0 to 7; they carry the names
the opcode table gives those slots, which are the default map's (R150). -/
inductive Instr where
  /-- STP, opcode 0: exit code (R63, R100). -/
  | stp (imm12 : BitVec 12)
  /-- ADD (reg,reg), opcode 1 (R64, R110). -/
  | addRR (d n m : RegIdx)
  /-- ADD (imm), opcode 2 (R65, R111). -/
  | addImm (d : RegIdx) (imm8 : BitVec 8)
  /-- SUB (reg,reg), opcode 3 (R64, R112). -/
  | subRR (d n m : RegIdx)
  /-- SUB (imm), opcode 4 (R65, R113). -/
  | subImm (d : RegIdx) (imm8 : BitVec 8)
  /-- MOV (imm), opcode 5 (R65, R114). -/
  | movImm (d : RegIdx) (imm8 : BitVec 8)
  /-- CMP (imm), opcode 6 (R65, R101). -/
  | cmpImm (n : RegIdx) (imm8 : BitVec 8)
  /-- LDR, opcode 7 (R66, R120). -/
  | ldr (d a : RegIdx) (imm4 : BitVec 4)
  /-- STR, opcode 8: `n` is the register stored (R66, R121). -/
  | str (n a : RegIdx) (imm4 : BitVec 4)
  /-- NAN, opcode 9 (R64, R130). -/
  | nan (d n m : RegIdx)
  /-- NOR, opcode 10 (R64, R131). -/
  | nor (d n m : RegIdx)
  /-- LSL, opcode 11 (R67, R132). -/
  | lsl (d n : RegIdx) (imm4 : BitVec 4)
  /-- LSR, opcode 12 (R67, R133). -/
  | lsr (d n : RegIdx) (imm4 : BitVec 4)
  /-- BRANCH0, opcode 13 with bit 11 clear (R68, R140). -/
  | branch0 (cond : BitVec 4) (a : RegIdx) (imm3 : BitVec 3)
  /-- BRANCH1, opcode 13 with bit 11 set (R68, R141). -/
  | branch1 (cond : BitVec 4) (imm7 : BitVec 7)
  /-- Opcode 14, slot 0: AND (R69, R151). -/
  | and (d n : RegIdx)
  /-- Opcode 14, slot 1: ORR (R69, R152). -/
  | orr (d n : RegIdx)
  /-- Opcode 14, slot 2: XOR (R69, R153). -/
  | xor (d n : RegIdx)
  /-- Opcode 14, slot 3: NOT (R69, R154). -/
  | not (d n : RegIdx)
  /-- Opcode 14, slot 4: LDB, `n` the address register (R69, R155). -/
  | ldb (d n : RegIdx)
  /-- Opcode 14, slot 5: STB, `d` the data register, `n` the address register (R69, R156, C5). -/
  | stb (d n : RegIdx)
  /-- Opcode 14, slot 6: not named by the source (R69, R158). -/
  | op14Slot6 (d n : RegIdx)
  /-- Opcode 14, slot 7: not named by the source (R69, R158). -/
  | op14Slot7 (d n : RegIdx)
  /-- INT, opcode 15 (R70, R170). -/
  | int (cond : BitVec 4) (index : BitVec 8)
  deriving DecidableEq, Repr

end Sys2Proof
end

