-- ==== Sys2Proof/WellFormed.lean ====
section
/-! DEFINITION. Well-formedness checks. An Instr needs none: each of its fields has exactly the width its format gives it (R62 to R70), and
the decoder is total, so every term is well formed. What can be ill-formed is a choice of parameters (R6), checked here, and a line of
assembler text (R76), checked in Machine/Assembly.lean. -/

namespace Sys2Proof

/-- MEM_SIZE is at least one byte: "parameter, 1..65536 bytes" (R6). -/
def Params.memSizePositive (p : Params) : Bool := decide (1 ≤ p.memSize)

/-- MEM_SIZE is at most 65536 bytes (R6). -/
def Params.memSizeInAddressSpace (p : Params) : Bool := decide (p.memSize ≤ 65536)

/-- The parameters are among those R6 admits; the other fields' types hold only admitted settings. -/
def Params.wellFormed (p : Params) : Bool := p.memSizePositive && p.memSizeInAddressSpace

end Sys2Proof
end

