-- ==== Sys2Proof/Decode.lean ====
section
/-! DEFINITION. The decoder (30_encoding.md R60 to R75), and after it the encoder, both from the formats of R62 to R70. `w.extractLsb' lo n`
is the spec's field `w[lo+n-1:lo]`. Decoding is a pure function of the word (R75, R83). -/

namespace Sys2Proof

/-- The 4-bit register field of `w` whose low bit is bit `lo` (R71). -/
def regField (w : Word) (lo : Nat) : RegIdx := (w.extractLsb' lo 4).toFin

/-- `op = CIR[15:12]`, the primary opcode (R61). -/
def primaryOpcode (w : Word) : Fin 16 := (w.extractLsb' 12 4).toFin

/-- `slot = CIR[10:8]` of primary opcode 14 (R69). -/
def slotField (w : Word) : Fin 8 := (w.extractLsb' 8 3).toFin

/-- Slot `slot` of primary opcode 14 with its register fields: TWO of R75, split into the rows of the opcode table (R73). -/
def twoRegister (slot : Fin 8) (d n : RegIdx) : Instr :=
  match slot with
  | 0 => .and d n
  | 1 => .orr d n
  | 2 => .xor d n
  | 3 => .not d n
  | 4 => .ldb d n
  | 5 => .stb d n
  | 6 => .op14Slot6 d n
  | 7 => .op14Slot7 d n

/-- Primary opcode 13: bit 11 selects the variant (R68). -/
def decodeBranch (w : Word) : Instr :=
  if w.extractLsb' 11 1 = 0#1 then
    .branch0 (w.extractLsb' 7 4) (regField w 3) (w.extractLsb' 0 3)
  else
    .branch1 (w.extractLsb' 7 4) (w.extractLsb' 0 7)

/-- The decode function, total over all 65536 words (R74, R75). -/
def decode (w : Word) : Instr :=
  match primaryOpcode w with
  | ⟨0, _⟩ => .stp (w.extractLsb' 0 12)
  | ⟨1, _⟩ => .addRR (regField w 8) (regField w 4) (regField w 0)
  | ⟨2, _⟩ => .addImm (regField w 8) (w.extractLsb' 0 8)
  | ⟨3, _⟩ => .subRR (regField w 8) (regField w 4) (regField w 0)
  | ⟨4, _⟩ => .subImm (regField w 8) (w.extractLsb' 0 8)
  | ⟨5, _⟩ => .movImm (regField w 8) (w.extractLsb' 0 8)
  | ⟨6, _⟩ => .cmpImm (regField w 8) (w.extractLsb' 0 8)
  | ⟨7, _⟩ => .ldr (regField w 8) (regField w 4) (w.extractLsb' 0 4)
  | ⟨8, _⟩ => .str (regField w 8) (regField w 4) (w.extractLsb' 0 4)
  | ⟨9, _⟩ => .nan (regField w 8) (regField w 4) (regField w 0)
  | ⟨10, _⟩ => .nor (regField w 8) (regField w 4) (regField w 0)
  | ⟨11, _⟩ => .lsl (regField w 8) (regField w 4) (w.extractLsb' 0 4)
  | ⟨12, _⟩ => .lsr (regField w 8) (regField w 4) (w.extractLsb' 0 4)
  | ⟨13, _⟩ => decodeBranch w
  | ⟨14, _⟩ => twoRegister (slotField w) (regField w 4) (regField w 0)
  | ⟨15, _⟩ => .int (w.extractLsb' 8 4) (w.extractLsb' 0 8)
  | ⟨k + 16, h⟩ => absurd h (by omega)

/-- Why a list of bytes is not an instruction followed by the rest. No word is illegal (R74), so the only reason is a missing byte. -/
inductive DecodeError where
  /-- Fewer than the two bytes of an instruction word (R60) are left. -/
  | truncated
  deriving DecidableEq, Repr

/-- The little-endian word of two bytes, `hi ++ lo`: the byte at the lower address holds bits [7:0] (R7, R47, R60). -/
def joinBytes (lo hi : Byte) : Word := hi ++ lo

/-- The byte of a word that stands at the lower address, v[7:0] (R47). -/
def lowByte (v : Word) : Byte := v.extractLsb' 0 8

/-- The byte of a word that stands at the higher address, v[15:8] (R47). -/
def highByte (v : Word) : Byte := v.extractLsb' 8 8

/-- Read one instruction off a list of bytes, lowest address first; the answer holds the bytes that follow it (R60). -/
def decodeBytes : List Byte → Except DecodeError (Instr × List Byte)
  | lo :: hi :: rest => .ok (decode (joinBytes lo hi), rest)
  | _ => .error .truncated

/-- The instruction read from the table's bits `w`, bit 0 the least significant bit of the one word, the bits above `nbits` zero. -/
def decodeTableWord (nbits w : Nat) : Option Instr :=
  let word : Word := BitVec.ofNat 16 (w % 2 ^ nbits)
  match decodeBytes [lowByte word, highByte word] with
  | .ok (i, _) => some i
  | .error _ => none

/-- A register index as its 4-bit field. -/
def regBits (r : RegIdx) : BitVec 4 := BitVec.ofFin r

/-- Formats RRR, MEM and SHF: four nibbles (R64, R66, R67). -/
def packNibbles (op f g h : BitVec 4) : Word := op ++ f ++ g ++ h

/-- Formats RI8, NI8 and INT: two nibbles and a byte (R65, R70). -/
def packByte (op f : BitVec 4) (imm8 : BitVec 8) : Word := op ++ f ++ imm8

/-- Format R2 with CIR[11] = 0, as the assembler emits it (R69, R76). -/
def packTwo (slot : BitVec 3) (d n : RegIdx) : Word := 0xe#4 ++ 0#1 ++ slot ++ regBits d ++ regBits n

/-- The word of an instruction, from the formats of R62 to R70; op-14 words with CIR[11] = 0 (R76). -/
def encode : Instr → Word
  | .stp imm12 => 0x0#4 ++ imm12
  | .addRR d n m => packNibbles 0x1#4 (regBits d) (regBits n) (regBits m)
  | .addImm d imm8 => packByte 0x2#4 (regBits d) imm8
  | .subRR d n m => packNibbles 0x3#4 (regBits d) (regBits n) (regBits m)
  | .subImm d imm8 => packByte 0x4#4 (regBits d) imm8
  | .movImm d imm8 => packByte 0x5#4 (regBits d) imm8
  | .cmpImm n imm8 => packByte 0x6#4 (regBits n) imm8
  | .ldr d a imm4 => packNibbles 0x7#4 (regBits d) (regBits a) imm4
  | .str n a imm4 => packNibbles 0x8#4 (regBits n) (regBits a) imm4
  | .nan d n m => packNibbles 0x9#4 (regBits d) (regBits n) (regBits m)
  | .nor d n m => packNibbles 0xa#4 (regBits d) (regBits n) (regBits m)
  | .lsl d n imm4 => packNibbles 0xb#4 (regBits d) (regBits n) imm4
  | .lsr d n imm4 => packNibbles 0xc#4 (regBits d) (regBits n) imm4
  | .branch0 cond a imm3 => 0xd#4 ++ 0#1 ++ cond ++ regBits a ++ imm3
  | .branch1 cond imm7 => 0xd#4 ++ 1#1 ++ cond ++ imm7
  | .and d n => packTwo 0#3 d n
  | .orr d n => packTwo 1#3 d n
  | .xor d n => packTwo 2#3 d n
  | .not d n => packTwo 3#3 d n
  | .ldb d n => packTwo 4#3 d n
  | .stb d n => packTwo 5#3 d n
  | .op14Slot6 d n => packTwo 6#3 d n
  | .op14Slot7 d n => packTwo 7#3 d n
  | .int cond index => packByte 0xf#4 cond index

/-- The bytes of an instruction as Memory holds them, lowest address first (R60). -/
def encodeBytes (i : Instr) : List Byte := [lowByte (encode i), highByte (encode i)]

/-- One row of the opcode table: the fixed bits of its words. -/
structure OpcodeRow where
  /-- The bits the row fixes. -/
  mask : Word
  /-- Their values. -/
  value : Word
  deriving DecidableEq, Repr

/-- The word has the row's fixed bits. -/
def OpcodeRow.admits (r : OpcodeRow) (w : Word) : Bool := decide (w &&& r.mask = r.value)

/-- The row of the opcode table an instruction belongs to, by its rule's match and mask (R100 to R170). -/
def Instr.row : Instr → OpcodeRow
  | .stp _ => ⟨0xf000, 0x0000⟩
  | .addRR _ _ _ => ⟨0xf000, 0x1000⟩
  | .addImm _ _ => ⟨0xf000, 0x2000⟩
  | .subRR _ _ _ => ⟨0xf000, 0x3000⟩
  | .subImm _ _ => ⟨0xf000, 0x4000⟩
  | .movImm _ _ => ⟨0xf000, 0x5000⟩
  | .cmpImm _ _ => ⟨0xf000, 0x6000⟩
  | .ldr _ _ _ => ⟨0xf000, 0x7000⟩
  | .str _ _ _ => ⟨0xf000, 0x8000⟩
  | .nan _ _ _ => ⟨0xf000, 0x9000⟩
  | .nor _ _ _ => ⟨0xf000, 0xa000⟩
  | .lsl _ _ _ => ⟨0xf000, 0xb000⟩
  | .lsr _ _ _ => ⟨0xf000, 0xc000⟩
  | .branch0 _ _ _ => ⟨0xf800, 0xd000⟩
  | .branch1 _ _ => ⟨0xf800, 0xd800⟩
  | .and _ _ => ⟨0xf700, 0xe000⟩
  | .orr _ _ => ⟨0xf700, 0xe100⟩
  | .xor _ _ => ⟨0xf700, 0xe200⟩
  | .not _ _ => ⟨0xf700, 0xe300⟩
  | .ldb _ _ => ⟨0xf700, 0xe400⟩
  | .stb _ _ => ⟨0xf700, 0xe500⟩
  | .op14Slot6 _ _ => ⟨0xf700, 0xe600⟩
  | .op14Slot7 _ _ => ⟨0xf700, 0xe700⟩
  | .int _ _ => ⟨0xf000, 0xf000⟩

end Sys2Proof
end

