-- ==== Sys2Proof/Machine/Defaults.lean ====
section
/-! DEFINITION. The default values of the parameters (00_scope.md R6), which State.reset holds. They stand in a file of their own so that
a later repair may change one. -/

namespace Sys2Proof.Machine

/-- The default OP14_MAP: the six named operations in the order the source lists them, slots 6 and 7 unlisted (R150, D9). -/
def defaultOp14Map : Vector Op14Op 8 :=
  #v[.and, .orr, .xor, .not, .ldb, .stb, .unlisted, .unlisted]

/-- The defaults of R6. -/
def defaultParams : Params where
  memSize := 65536
  addrOverflow := .wrap
  op14Map := defaultOp14Map
  op14Unlisted := .refuse
  stubPolicy := .nop
  haltOnStop := true

end Sys2Proof.Machine
end

