-- ==== Sys2Proof/Machine/State.lean ====
section
/-! DEFINITION. The state of the core (10_state.md R34), the reasons a step can stop (60_exceptions.md R181) and the state after
construction (R33, R200). -/

namespace Sys2Proof.Machine

/-- Which stub an Unimplemented event or a Stub refusal names (R91, R181). -/
inductive StubKind where
  | branch0
  | branch1
  | int
  deriving DecidableEq, Repr

/-- A trace event (R91). The core emits them in order and never reads them. -/
inductive Event where
  /-- Emitted by STP: the exit code. -/
  | stop (code : BitVec 12)
  /-- Emitted by CMP (imm): the register's index, its value and the immediate. -/
  | compare (r : RegIdx) (v : Word) (k : Byte)
  /-- Emitted by BRANCH0, BRANCH1 and INT: which one, and the word in CIR. -/
  | unimplemented (kind : StubKind) (w : Word)
  deriving DecidableEq, Repr

/-- The model faults (R8, R181). None is an exception of the core: each stands for a duty of the host or the Memory (R41, R42). -/
inductive Fault where
  /-- ModelFault(MemOutOfRange(a)): a byte access at or above MEM_SIZE. Raised by fetch, LDR, STR, LDB and STB (R41). Safe: the model
  stops where the source leaves the answer to the Memory. -/
  | memOutOfRange (addr : Nat)
  /-- ModelFault(AddrOverflow(a)): a computed address above 0xFFFF under ADDR_OVERFLOW = fault. Raised by fetch, LDR and STR (R42).
  Safe: it is the setting the spec gives for proofs that must not rely on the wrap (D4). -/
  | addrOverflow (addr : Nat)
  deriving DecidableEq, Repr

/-- The refusals (R8, R181). -/
inductive Refusal where
  /-- An instruction with no meaning yet, by its mnemonic. No arm of exec answers it. Safe. -/
  | notModelled (mnemonic : String)
  /-- Refused(Op14Unlisted(w)): a slot mapped to UNLISTED under OP14_UNLISTED = refuse, with the word in CIR. Raised by the
  instructions of primary opcode 14 (R158). Safe (D10). -/
  | op14Unlisted (w : Word)
  /-- Refused(Stub(kind, w)): BRANCH0, BRANCH1 or INT under STUB_POLICY = refuse, with the word in CIR (R140, R141, R170). Safe (D11). -/
  | stub (kind : StubKind) (w : Word)
  deriving DecidableEq, Repr

/-- The model marks (R32, R34): a faulted or refused state takes no further step and keeps its mark (R8, R181). -/
inductive Status where
  | running
  | faulted (reason : Fault)
  | refused (reason : Refusal)
  deriving DecidableEq, Repr

/-- The whole state (R34), with the parameters of R6 beside it (log 1). -/
structure State where
  /-- register_file_16x16: x[0] to x[15]; x[15] is the PC (R20, R24). -/
  regs : Vector Word 16
  /-- The memory address register: the address of the last fetch (R27). -/
  mar : Word
  /-- The current instruction register: the last word fetched (R28). -/
  cir : Word
  /-- The external Memory (R40): the listed bytes, in the canonical form of Memory.wf (Machine/Ops.lean). -/
  mem : List Host.Cell
  /-- The trace output, oldest event first (R91). -/
  trace : List Event
  /-- The model mark (R32). -/
  status : Status
  /-- The parameters (R6), which no step changes. -/
  params : Params
  deriving DecidableEq, Repr

/-- CONSTRUCT(mem): every register, MAR and CIR zero, the Memory bound with the contents INIT_MEM, no event, no mark (R33, R57, R200). -/
def State.construct (p : Params) (initMem : List Host.Cell) : State where
  regs := Vector.replicate 16 0
  mar := 0
  cir := 0
  mem := initMem
  trace := []
  status := .running
  params := p

/-- The machine right after reset: constructed with the default parameters over a Memory with nothing listed (R6, R200; log 2). -/
def State.reset : State := State.construct defaultParams []

end Sys2Proof.Machine
end

