-- ==== Sys2Proof/Machine/Ops.lean ====
section
/-! DEFINITION. The operations over registers, trace and Memory that every phase is made of (00_scope.md R8, 20_memory.md R40 to R44).
The core takes no exception and returns from none (60_exceptions.md R180, R184, R185), so there is no operation for either. -/

namespace Sys2Proof.Machine

/-! ## Registers, control registers, trace -/

/-- The index of the PC (R24). -/
def pcIdx : RegIdx := 15

/-- `x[r]` (R8). No register is special-cased (R21, R22). -/
def State.reg (s : State) (r : RegIdx) : Word := s.regs[r]

/-- `x[r] <- v` (R8, R22). -/
def State.setReg (s : State) (r : RegIdx) (v : Word) : State := { s with regs := s.regs.set r v }

/-- The PC: the same cell as x[15] (R8, R24). -/
def State.pc (s : State) : Word := s.reg pcIdx

/-- `MAR <- v`, written by the fetch phase only (R27). -/
def State.setMar (s : State) (v : Word) : State := { s with mar := v }

/-- `CIR <- v`, written by the fetch phase only (R28). -/
def State.setCir (s : State) (v : Word) : State := { s with cir := v }

/-- Replace the listed bytes of the Memory. -/
def State.setMem (s : State) (m : List Host.Cell) : State := { s with mem := m }

/-- Set the model mark (R32). -/
def State.setStatus (s : State) (st : Status) : State := { s with status := st }

/-- `emit e`: append the event to the trace output (R8, R91). -/
def State.emit (s : State) (e : Event) : State := { s with trace := s.trace ++ [e] }

/-! ## Memory as plain data -/

/-- What an address the Memory does not list reads as (log 2). -/
def Memory.unlisted : Byte := 0

/-- The byte at address `a`: the value last written there, else the launch contents (R49, R52). -/
def Memory.read : List Host.Cell → Nat → Byte
  | [], _ => Memory.unlisted
  | (k, v) :: rest, a => if k = a then v else Memory.read rest a

/-- Set the byte at address `a` and change no other byte, keeping the canonical form (R44). -/
def Memory.write : List Host.Cell → Nat → Byte → List Host.Cell
  | [], a, b => if b = Memory.unlisted then [] else [(a, b)]
  | (k, v) :: rest, a, b =>
    if a < k then (if b = Memory.unlisted then (k, v) :: rest else (a, b) :: (k, v) :: rest)
    else if a = k then (if b = Memory.unlisted then rest else (a, b) :: rest)
    else (k, v) :: Memory.write rest a b

/-- The canonical form: addresses strictly rising, and no entry equal to what an unlisted address reads as. -/
abbrev Memory.wf (m : List Host.Cell) : Prop :=
  m.Pairwise (fun c c' => c.1 < c'.1) ∧ ∀ c ∈ m, c.2 ≠ Memory.unlisted

/-- Every listed address is below `size` (R41). -/
abbrev Memory.within (size : Nat) (m : List Host.Cell) : Prop := ∀ c ∈ m, c.1 < size

/-- INIT_MEM as a run of bytes from address `a` upwards, over the Memory `m` (R57, R202). -/
def Memory.load (m : List Host.Cell) (a : Nat) : List Byte → List Host.Cell
  | [] => m
  | b :: rest => Memory.load (Memory.write m a b) (a + 1) rest

/-! ## The memory port and the accesses built on it -/

/-- `addr16(a)`: bring a computed address into the 16-bit address space (R42). -/
def addr16 (s : State) (a : Nat) : Except Fault Word :=
  if a ≤ 0xffff then .ok (BitVec.ofNat 16 a)
  else match s.params.addrOverflow with
    | .wrap => .ok (BitVec.ofNat 16 a)
    | .fault => .error (.addrOverflow a)

/-- `rd8(a)`, with the model's bound check (R40, R41). A read changes no state (R49). -/
def rd8 (s : State) (a : Word) : Except Fault Byte :=
  if a.toNat < s.params.memSize then .ok (Memory.read s.mem a.toNat)
  else .error (.memOutOfRange a.toNat)

/-- `wr8(a, b)`, with the model's bound check (R40, R41). -/
def wr8 (s : State) (a : Word) (b : Byte) : Except Fault State :=
  if a.toNat < s.params.memSize then .ok (s.setMem (Memory.write s.mem a.toNat b))
  else .error (.memOutOfRange a.toNat)

/-- `MemRead(a, 2)`: little-endian, the low byte first (R43, R47, D7). -/
def readWord (s : State) (a : Word) : Except Fault Word :=
  match rd8 s a with
  | .error f => .error f
  | .ok lo =>
    match addr16 s (a.toNat + 1) with
    | .error f => .error f
    | .ok a' =>
      match rd8 s a' with
      | .error f => .error f
      | .ok hi => .ok (joinBytes lo hi)

/-- `MemWrite(a, 2, v)`: little-endian, the low byte written before the high byte's address is formed (R44, R183, D7). -/
def writeWord (s : State) (a v : Word) : Except Fault State :=
  match wr8 s a (lowByte v) with
  | .error f => .error f
  | .ok t =>
    match addr16 t (a.toNat + 1) with
    | .error f => .error f
    | .ok a' => wr8 t a' (highByte v)

/-- The state a `writeWord` has reached when it stops: with the low byte if that was written (R183). -/
def writeWordAtStop (s : State) (a v : Word) : State :=
  match wr8 s a (lowByte v) with
  | .error _ => s
  | .ok t => t

/-! ## The outcome of a phase -/

/-- A phase that reached a state or a model fault, as an outcome of the host's interface (R181). -/
def outcomeOf : Except Fault State → Host.Outcome State Fault Refusal
  | .ok s => .next s
  | .error f => .fault f

/-- Write the loaded value to the destination, or end with the fault of the load. All sources were read before (R86). -/
def loadInto (s : State) (d : RegIdx) : Except Fault Word → Host.Outcome State Fault Refusal
  | .ok v => .next (s.setReg d v)
  | .error f => .fault f

end Sys2Proof.Machine
end

