-- ==== Sys2Proof/Machine/Operands.lean ====
section
/-! DEFINITION. The operand forms (30_encoding.md R71, 20_memory.md R45). There is no file for flags: no instruction computes one (R25). -/

namespace Sys2Proof.Machine

/-- `zext_16(b)`: an imm8 or a loaded byte as a 16-bit value (R7, R71, R155, D8). -/
def zext16 (b : Byte) : Word := b.setWidth 16

/-- The shift amount of LSL and LSR, `imm4 + 1`, 1 to 16 (R71). -/
def shiftAmount (imm4 : BitVec 4) : Nat := imm4.toNat + 1

/-- The byte offset of LDR and STR, `imm4 * 2`, 0 to 30 (R71). -/
def byteOffset (imm4 : BitVec 4) : Nat := imm4.toNat * 2

/-- The effective address of LDR and STR: `addr16(x[rA] + imm4 * 2)` (R45, R120, R121). The base register is not updated. -/
def effectiveAddress (s : State) (a : RegIdx) (imm4 : BitVec 4) : Except Fault Word :=
  addr16 s ((s.reg a).toNat + byteOffset imm4)

end Sys2Proof.Machine
end

