-- ==== Sys2Proof/Machine/Arithmetic.lean ====
section
/-! DEFINITION. Arithmetic and move: ADD, SUB, MOV (42_arithmetic.md R110 to R115). BitVec addition and subtraction are the exact result
mod 2^16 (R115). -/

namespace Sys2Proof.Machine

/-- ADD (reg,reg) (R110). -/
def execAddRR (d n m : RegIdx) (s : State) : Host.Outcome State Fault Refusal :=
  .next (s.setReg d (s.reg n + s.reg m))

/-- ADD (imm): the destination is also the first source (R111). -/
def execAddImm (d : RegIdx) (imm8 : BitVec 8) (s : State) : Host.Outcome State Fault Refusal :=
  .next (s.setReg d (s.reg d + zext16 imm8))

/-- SUB (reg,reg): rN is the minuend, rM the subtrahend (R112). -/
def execSubRR (d n m : RegIdx) (s : State) : Host.Outcome State Fault Refusal :=
  .next (s.setReg d (s.reg n - s.reg m))

/-- SUB (imm) (R113). -/
def execSubImm (d : RegIdx) (imm8 : BitVec 8) (s : State) : Host.Outcome State Fault Refusal :=
  .next (s.setReg d (s.reg d - zext16 imm8))

/-- MOV (imm): the high byte becomes 0 (R114). -/
def execMovImm (d : RegIdx) (imm8 : BitVec 8) (s : State) : Host.Outcome State Fault Refusal :=
  .next (s.setReg d (zext16 imm8))

end Sys2Proof.Machine
end

