-- ==== Sys2Proof/Machine/Stub.lean ====
section
/-! DEFINITION. The shared behaviour of the three stubs (45_branch.md, 47_interrupt.md, D11). -/

namespace Sys2Proof.Machine

/-- A stub by STUB_POLICY: an Unimplemented event with the word in CIR and no other change, or a refusal (R140, R141, R170). -/
def stubOutcome (kind : StubKind) (s : State) : Host.Outcome State Fault Refusal :=
  match s.params.stubPolicy with
  | .nop => .next (s.emit (.unimplemented kind s.cir))
  | .refuse => .refused (.stub kind s.cir)

end Sys2Proof.Machine
end

