-- ==== Sys2Proof/Machine/Branch.lean ====
section
/-! DEFINITION. The BRANCH family (45_branch.md R140 to R142): stubs. No rule reads their fields, and the model gives them no meaning
(R142, I14). -/

namespace Sys2Proof.Machine

/-- BRANCH0 (R140). -/
def execBranch0 (_cond : BitVec 4) (_a : RegIdx) (_imm3 : BitVec 3) (s : State) : Host.Outcome State Fault Refusal :=
  stubOutcome .branch0 s

/-- BRANCH1 (R141). -/
def execBranch1 (_cond : BitVec 4) (_imm7 : BitVec 7) (s : State) : Host.Outcome State Fault Refusal :=
  stubOutcome .branch1 s

end Sys2Proof.Machine
end

