-- ==== Sys2Proof/Machine/Diagnostic.lean ====
section
/-! DEFINITION. The diagnostic instructions STP and CMP (imm) (41_diagnostic.md R100 to R102). -/

namespace Sys2Proof.Machine

/-- STP: emit Stop(imm12), and nothing else; the core does not halt (R100). -/
def execStp (imm12 : BitVec 12) (s : State) : Host.Outcome State Fault Refusal :=
  .next (s.emit (.stop imm12))

/-- CMP (imm): emit Compare(rN, x[rN], imm8), and nothing else (R101). -/
def execCmpImm (n : RegIdx) (imm8 : BitVec 8) (s : State) : Host.Outcome State Fault Refusal :=
  .next (s.emit (.compare n (s.reg n) imm8))

end Sys2Proof.Machine
end

