-- ==== Sys2Proof/Machine/Interrupt.lean ====
section
/-! DEFINITION. INT (47_interrupt.md R170, R171): a stub, no trap, no vector, no handler. -/

namespace Sys2Proof.Machine

/-- INT (R170). -/
def execInt (_cond : BitVec 4) (_index : BitVec 8) (s : State) : Host.Outcome State Fault Refusal :=
  stubOutcome .int s

end Sys2Proof.Machine
end

