-- ==== Sys2Proof/Machine/LoadStore.lean ====
section
/-! DEFINITION. Word load and store: LDR and STR (43_load_store.md R120 to R122). -/

namespace Sys2Proof.Machine

/-- The word LDR loads, or the first model fault on the way to it (R120). -/
def loadedWord (s : State) (a : RegIdx) (imm4 : BitVec 4) : Except Fault Word :=
  match effectiveAddress s a imm4 with
  | .error f => .error f
  | .ok ea => readWord s ea

/-- LDR (R120). -/
def execLdr (d a : RegIdx) (imm4 : BitVec 4) (s : State) : Host.Outcome State Fault Refusal :=
  loadInto s d (loadedWord s a imm4)

/-- The state after STR's two byte writes, or the first model fault on the way to it (R121). -/
def storedWord (s : State) (n a : RegIdx) (imm4 : BitVec 4) : Except Fault State :=
  match effectiveAddress s a imm4 with
  | .error f => .error f
  | .ok ea => writeWord s ea (s.reg n)

/-- STR (R121). -/
def execStr (n a : RegIdx) (imm4 : BitVec 4) (s : State) : Host.Outcome State Fault Refusal :=
  outcomeOf (storedWord s n a imm4)

/-- The state STR has reached when it stops on a model fault (R183). -/
def storedWordAtStop (s : State) (n a : RegIdx) (imm4 : BitVec 4) : State :=
  match effectiveAddress s a imm4 with
  | .error _ => s
  | .ok ea => writeWordAtStop s ea (s.reg n)

end Sys2Proof.Machine
end

