-- ==== Sys2Proof/Machine/LogicShift.lean ====
section
/-! DEFINITION. Three-register logic and immediate shifts: NAN, NOR, LSL, LSR (44_logic_shift.md R130 to R134). -/

namespace Sys2Proof.Machine

/-- NAN, bitwise NAND (R130). -/
def execNan (d n m : RegIdx) (s : State) : Host.Outcome State Fault Refusal :=
  .next (s.setReg d (~~~(s.reg n &&& s.reg m)))

/-- NOR (R131). -/
def execNor (d n m : RegIdx) (s : State) : Host.Outcome State Fault Refusal :=
  .next (s.setReg d (~~~(s.reg n ||| s.reg m)))

/-- LSL by imm4 + 1; a shift by 16 gives 0 (R132). -/
def execLsl (d n : RegIdx) (imm4 : BitVec 4) (s : State) : Host.Outcome State Fault Refusal :=
  .next (s.setReg d (s.reg n <<< shiftAmount imm4))

/-- LSR by imm4 + 1, logical; a shift by 16 gives 0 (R133). -/
def execLsr (d n : RegIdx) (imm4 : BitVec 4) (s : State) : Host.Outcome State Fault Refusal :=
  .next (s.setReg d (s.reg n >>> shiftAmount imm4))

end Sys2Proof.Machine
end

