-- ==== Sys2Proof/Machine/TwoRegister.lean ====
section
/-! DEFINITION. The two-register family, primary opcode 14 (46_two_register.md R150 to R159): the seven operations, the slot dispatch through
OP14_MAP, and the meaning of each of the eight slots. -/

namespace Sys2Proof.Machine

/-- AND (R151). -/
def op14And (d n : RegIdx) (s : State) : Host.Outcome State Fault Refusal :=
  .next (s.setReg d (s.reg d &&& s.reg n))

/-- ORR (R152). -/
def op14Orr (d n : RegIdx) (s : State) : Host.Outcome State Fault Refusal :=
  .next (s.setReg d (s.reg d ||| s.reg n))

/-- XOR (R153). -/
def op14Xor (d n : RegIdx) (s : State) : Host.Outcome State Fault Refusal :=
  .next (s.setReg d (s.reg d ^^^ s.reg n))

/-- NOT: the old x[rD] is not read (R154). -/
def op14Not (d n : RegIdx) (s : State) : Host.Outcome State Fault Refusal :=
  .next (s.setReg d (~~~(s.reg n)))

/-- The byte LDB loads, zero-extended, or the model fault of the access (R155). -/
def loadedByte (s : State) (n : RegIdx) : Except Fault Word :=
  match rd8 s (s.reg n) with
  | .error f => .error f
  | .ok b => .ok (zext16 b)

/-- LDB: the address is x[rN], with no offset (R155). -/
def op14Ldb (d n : RegIdx) (s : State) : Host.Outcome State Fault Refusal :=
  loadInto s d (loadedByte s n)

/-- STB: rD is the data register, rN the address register (R156, C5). -/
def op14Stb (d n : RegIdx) (s : State) : Host.Outcome State Fault Refusal :=
  outcomeOf (wr8 s (s.reg n) (lowByte (s.reg d)))

/-- An operation the source does not name, by OP14_UNLISTED (R158, D10). -/
def op14UnlistedOp (s : State) : Host.Outcome State Fault Refusal :=
  match s.params.op14Unlisted with
  | .refuse => .refused (.op14Unlisted s.cir)
  | .nop => .next s

/-- Slot dispatch: the operation OP14_MAP gives the slot (R150). CIR[11] takes no part. -/
def op14Dispatch (slot : Fin 8) (d n : RegIdx) (s : State) : Host.Outcome State Fault Refusal :=
  match s.params.op14Map[slot] with
  | .and => op14And d n s
  | .orr => op14Orr d n s
  | .xor => op14Xor d n s
  | .not => op14Not d n s
  | .ldb => op14Ldb d n s
  | .stb => op14Stb d n s
  | .unlisted => op14UnlistedOp s

/-- Slot 0: AND under the default map (R150, R151). -/
def execAnd (d n : RegIdx) (s : State) : Host.Outcome State Fault Refusal := op14Dispatch 0 d n s

/-- Slot 1: ORR under the default map (R150, R152). -/
def execOrr (d n : RegIdx) (s : State) : Host.Outcome State Fault Refusal := op14Dispatch 1 d n s

/-- Slot 2: XOR under the default map (R150, R153). -/
def execXor (d n : RegIdx) (s : State) : Host.Outcome State Fault Refusal := op14Dispatch 2 d n s

/-- Slot 3: NOT under the default map (R150, R154). -/
def execNot (d n : RegIdx) (s : State) : Host.Outcome State Fault Refusal := op14Dispatch 3 d n s

/-- Slot 4: LDB under the default map (R150, R155). -/
def execLdb (d n : RegIdx) (s : State) : Host.Outcome State Fault Refusal := op14Dispatch 4 d n s

/-- Slot 5: STB under the default map (R150, R156). -/
def execStb (d n : RegIdx) (s : State) : Host.Outcome State Fault Refusal := op14Dispatch 5 d n s

/-- Slot 6: unlisted under the default map (R150, R158). -/
def execOp14Slot6 (d n : RegIdx) (s : State) : Host.Outcome State Fault Refusal := op14Dispatch 6 d n s

/-- Slot 7: unlisted under the default map (R150, R158). -/
def execOp14Slot7 (d n : RegIdx) (s : State) : Host.Outcome State Fault Refusal := op14Dispatch 7 d n s

end Sys2Proof.Machine
end

