-- ==== Sys2Proof/Machine/Dispatch.lean ====
section
/-! DEFINITION. The dispatch of the execute phase (40_fetch_decode.md R85): one arm per constructor. -/

namespace Sys2Proof.Machine

def exec (i : Instr) (s : State) : Host.Outcome State Fault Refusal :=
  match i with
  | .stp imm12 => Sys2Proof.Machine.execStp imm12 s
  | .addRR d n m => Sys2Proof.Machine.execAddRR d n m s
  | .addImm d imm8 => Sys2Proof.Machine.execAddImm d imm8 s
  | .subRR d n m => Sys2Proof.Machine.execSubRR d n m s
  | .subImm d imm8 => Sys2Proof.Machine.execSubImm d imm8 s
  | .movImm d imm8 => Sys2Proof.Machine.execMovImm d imm8 s
  | .cmpImm n imm8 => Sys2Proof.Machine.execCmpImm n imm8 s
  | .ldr d a imm4 => Sys2Proof.Machine.execLdr d a imm4 s
  | .str n a imm4 => Sys2Proof.Machine.execStr n a imm4 s
  | .nan d n m => Sys2Proof.Machine.execNan d n m s
  | .nor d n m => Sys2Proof.Machine.execNor d n m s
  | .lsl d n imm4 => Sys2Proof.Machine.execLsl d n imm4 s
  | .lsr d n imm4 => Sys2Proof.Machine.execLsr d n imm4 s
  | .branch0 cond a imm3 => Sys2Proof.Machine.execBranch0 cond a imm3 s
  | .branch1 cond imm7 => Sys2Proof.Machine.execBranch1 cond imm7 s
  | .and d n => Sys2Proof.Machine.execAnd d n s
  | .orr d n => Sys2Proof.Machine.execOrr d n s
  | .xor d n => Sys2Proof.Machine.execXor d n s
  | .not d n => Sys2Proof.Machine.execNot d n s
  | .ldb d n => Sys2Proof.Machine.execLdb d n s
  | .stb d n => Sys2Proof.Machine.execStb d n s
  | .op14Slot6 d n => Sys2Proof.Machine.execOp14Slot6 d n s
  | .op14Slot7 d n => Sys2Proof.Machine.execOp14Slot7 d n s
  | .int cond index => Sys2Proof.Machine.execInt cond index s

end Sys2Proof.Machine
end

