-- ==== Sys2Proof/Machine/Phases.lean ====
section
/-! DEFINITION. The two phases of an instruction cycle (40_fetch_decode.md R80, R85), each as the spec gives it from a running state. -/

namespace Sys2Proof.Machine

/-- The fetch phase: MAR <- x[15], CIR <- the little-endian word at MAR, x[15] <- x[15] + 2 mod 2^16 (R80, R82). -/
def fetch (s : State) : Except Fault State :=
  let t := s.setMar s.pc
  match readWord t t.mar with
  | .error f => .error f
  | .ok w => .ok ((t.setCir w).setReg pcIdx (t.pc + 2))

/-- The state the fetch phase has reached when it stops on a model fault: MAR is written, CIR and the PC are not (R80, R183). -/
def fetchAtStop (s : State) : State := s.setMar s.pc

/-- The execute phase: run the instruction in CIR (R83, R85). It can be called again with no fetch between (R88). -/
def execute (s : State) : Host.Outcome State Fault Refusal := exec (decode s.cir) s

/-- The state the execute phase has reached when it stops: only STR can have an effect before its stop (R86, R183). -/
def executeAtStop (s : State) : State :=
  match decode s.cir with
  | .str n a imm4 => storedWordAtStop s n a imm4
  | _ => s

/-- The canonical instruction cycle from a running state: one fetch phase, then one execute phase (R89). -/
def cycle (s : State) : Host.Outcome State Fault Refusal :=
  match fetch s with
  | .error f => .fault f
  | .ok t => execute t

/-- The cycle if the state carries no mark; otherwise the mark again, since no further step is taken (R8, R181). -/
def cycleIfRunning (s : State) : Host.Outcome State Fault Refusal :=
  match s.status with
  | .running => cycle s
  | .faulted f => .fault f
  | .refused r => .refused r

end Sys2Proof.Machine
end

