-- ==== Sys2Proof/Machine/HostPort.lean ====
section
/-! DEFINITION. The host's interfaces: the control port and the dump port (40_fetch_decode.md R90, R92), the host's writes to Memory between
requests (R202, D24), and the host's run loop (R89). Here a model fault or a refusal is kept as the state's mark (R32, R181). -/

namespace Sys2Proof.Machine

/-- The record of the dump port: all 16 registers, MAR and CIR (R92, D22). -/
structure DumpRecord where
  regs : Vector Word 16
  mar : Word
  cir : Word
  deriving DecidableEq, Repr

/-- What DUMP returns (R92). -/
def State.dump (s : State) : DumpRecord := ⟨s.regs, s.mar, s.cir⟩

/-- The state after a phase: its next state, or the state it had reached when it stopped, with the mark set (R181). -/
def markOutcome (atStop : State) : Host.Outcome State Fault Refusal → State
  | .next t => t
  | .fault f => atStop.setStatus (.faulted f)
  | .refused r => atStop.setStatus (.refused r)

/-- The request FETCH. A marked state takes no further step (R181). -/
def requestFetch (s : State) : State :=
  match s.status with
  | .running => markOutcome (fetchAtStop s) (outcomeOf (fetch s))
  | _ => s

/-- The request EXECUTE. A marked state takes no further step (R181). -/
def requestExecute (s : State) : State :=
  match s.status with
  | .running => markOutcome (executeAtStop s) (execute s)
  | _ => s

/-- A request of the control port (R90). -/
inductive Request where
  /-- CONSTRUCT(mem): the bytes of the Memory from address 0 upwards, once per run (D18). The parameters of the block stay as they are. -/
  | construct (initMem : List Byte)
  | fetch
  | execute
  | dump
  deriving DecidableEq, Repr

/-- The block's answer to a request: the new state, and the dump record for DUMP (R90). -/
def respond (q : Request) (s : State) : State × Option DumpRecord :=
  match q with
  | .construct initMem => (State.construct s.params (Memory.load [] 0 (initMem.take s.params.memSize)), none)
  | .fetch => (requestFetch s, none)
  | .execute => (requestExecute s, none)
  | .dump => (s, some s.dump)

/-- A host write of one byte between requests (R202, D24). The Memory has no byte at or above MEM_SIZE to write (R41). -/
def hostWrite (s : State) (a : Nat) (b : Byte) : State :=
  if a < s.params.memSize then s.setMem (Memory.write s.mem a b) else s

/-- The word `w` placed at the address `a`, low byte at `a`, the byte after 0xFFFF being 0x0000. -/
def hostWriteWord (s : State) (a w : Word) : State :=
  hostWrite (hostWrite s a.toNat (lowByte w)) (a + 1).toNat (highByte w)

/-- The event is a Stop. -/
def Event.isStop : Event → Bool
  | .stop _ => true
  | .compare _ _ _ => false
  | .unimplemented _ _ => false

/-- The phase from `s` to `t` emitted a Stop event (R89). -/
def emittedStop (s t : State) : Bool := (t.trace.drop s.trace.length).any Event.isStop

/-- How a run of the loop is over (R89). Used-up fuel is not an end of the program (D20). -/
inductive RunEnd where
  /-- A Stop event with HALT_ON_STOP. -/
  | stopped
  /-- A model fault or a refusal; the state carries the mark. -/
  | marked
  /-- The fuel is used up; the program is still running. -/
  | outOfFuel
  deriving DecidableEq, Repr

/-- The host's run loop (R89). -/
def run : Nat → State → RunEnd × State
  | 0, s => (.outOfFuel, s)
  | k + 1, s =>
    let t := requestFetch s
    if t.status ≠ .running then (.marked, t)
    else
      let u := requestExecute t
      if u.status ≠ .running then (.marked, u)
      else if u.params.haltOnStop && emittedStop t u then (.stopped, u)
      else run k u

end Sys2Proof.Machine
end

