-- ==== Sys2Proof/Machine/Step.lean ====
section
/-! DEFINITION. One step of the machine: one canonical instruction cycle (40_fetch_decode.md R89, D19). -/

namespace Sys2Proof.Machine

/-- One fetch phase, then one execute phase; a state that carries a mark answers with it (R8, R89, R181). -/
def step (s : State) : Host.Outcome State Fault Refusal := cycleIfRunning s

/-- `s` with the instruction word `w` (its bits at and above `nbits` zero) stored at the PC, where the next step fetches (R80, log 4). -/
def State.withFetchWord (s : State) (nbits w : Nat) : State :=
  hostWriteWord s s.pc (BitVec.ofNat 16 (w % 2 ^ nbits))

end Sys2Proof.Machine
end

