-- ==== Sys2Proof/Machine/Assembly.lean ====
section
/-! DEFINITION. The assembler syntax the spec gives (30_encoding.md R76, D21): byte offsets and shift amounts as they are meant, not as they
are encoded. No meaning of an instruction depends on it. -/

namespace Sys2Proof.Machine

/-- A line of assembler text, its numbers as written (R76). -/
inductive Asm where
  | stp (code : Nat)
  | addRR (d n m : RegIdx)
  | addImm (d : RegIdx) (k : Nat)
  | subRR (d n m : RegIdx)
  | subImm (d : RegIdx) (k : Nat)
  | movImm (d : RegIdx) (k : Nat)
  | cmpImm (n : RegIdx) (k : Nat)
  /-- `off` is the byte offset. -/
  | ldr (d a : RegIdx) (off : Nat)
  /-- `off` is the byte offset. -/
  | str (n a : RegIdx) (off : Nat)
  | nan (d n m : RegIdx)
  | nor (d n m : RegIdx)
  /-- `sh` is the shift amount. -/
  | lsl (d n : RegIdx) (sh : Nat)
  /-- `sh` is the shift amount. -/
  | lsr (d n : RegIdx) (sh : Nat)
  | branch0 (cond : Nat) (a : RegIdx) (k : Nat)
  | branch1 (cond k : Nat)
  | and (d n : RegIdx)
  | orr (d n : RegIdx)
  | xor (d n : RegIdx)
  | not (d n : RegIdx)
  | ldb (d n : RegIdx)
  | stb (d n : RegIdx)
  | int (cond index : Nat)
  /-- `.word`: the word as given, used for op-14 slots 6 and 7. -/
  | word (w : Word)
  deriving DecidableEq, Repr

/-- A byte offset that imm4 can hold: even, 0 to 30 (R71, R76). -/
def offsetFits (off : Nat) : Bool := decide (off % 2 = 0) && decide (off ≤ 30)

/-- A shift amount that imm4 can hold: 1 to 16 (R71, R76). -/
def shiftFits (sh : Nat) : Bool := decide (1 ≤ sh) && decide (sh ≤ 16)

/-- A number that an unsigned field of `n` bits can hold (R71). -/
def fieldFits (n k : Nat) : Bool := decide (k < 2 ^ n)

/-- Every number of the line fits its field (R76). -/
def Asm.wellFormed : Asm → Bool
  | .stp code => fieldFits 12 code
  | .addImm _ k => fieldFits 8 k
  | .subImm _ k => fieldFits 8 k
  | .movImm _ k => fieldFits 8 k
  | .cmpImm _ k => fieldFits 8 k
  | .ldr _ _ off => offsetFits off
  | .str _ _ off => offsetFits off
  | .lsl _ _ sh => shiftFits sh
  | .lsr _ _ sh => shiftFits sh
  | .branch0 cond _ k => fieldFits 4 cond && fieldFits 3 k
  | .branch1 cond k => fieldFits 4 cond && fieldFits 7 k
  | .int cond index => fieldFits 4 cond && fieldFits 8 index
  | .addRR _ _ _ => true
  | .subRR _ _ _ => true
  | .nan _ _ _ => true
  | .nor _ _ _ => true
  | .and _ _ => true
  | .orr _ _ => true
  | .xor _ _ => true
  | .not _ _ => true
  | .ldb _ _ => true
  | .stb _ _ => true
  | .word _ => true

/-- The word of a well-formed line: imm4 = off / 2 for LDR and STR, imm4 = sh - 1 for LSL and LSR (R76). -/
def Asm.toWord : Asm → Word
  | .stp code => encode (.stp (BitVec.ofNat 12 code))
  | .addRR d n m => encode (.addRR d n m)
  | .addImm d k => encode (.addImm d (BitVec.ofNat 8 k))
  | .subRR d n m => encode (.subRR d n m)
  | .subImm d k => encode (.subImm d (BitVec.ofNat 8 k))
  | .movImm d k => encode (.movImm d (BitVec.ofNat 8 k))
  | .cmpImm n k => encode (.cmpImm n (BitVec.ofNat 8 k))
  | .ldr d a off => encode (.ldr d a (BitVec.ofNat 4 (off / 2)))
  | .str n a off => encode (.str n a (BitVec.ofNat 4 (off / 2)))
  | .nan d n m => encode (.nan d n m)
  | .nor d n m => encode (.nor d n m)
  | .lsl d n sh => encode (.lsl d n (BitVec.ofNat 4 (sh - 1)))
  | .lsr d n sh => encode (.lsr d n (BitVec.ofNat 4 (sh - 1)))
  | .branch0 cond a k => encode (.branch0 (BitVec.ofNat 4 cond) a (BitVec.ofNat 3 k))
  | .branch1 cond k => encode (.branch1 (BitVec.ofNat 4 cond) (BitVec.ofNat 7 k))
  | .and d n => encode (.and d n)
  | .orr d n => encode (.orr d n)
  | .xor d n => encode (.xor d n)
  | .not d n => encode (.not d n)
  | .ldb d n => encode (.ldb d n)
  | .stb d n => encode (.stb d n)
  | .int cond index => encode (.int (BitVec.ofNat 4 cond) (BitVec.ofNat 8 index))
  | .word w => w

/-- The assembler: a line whose numbers do not fit is refused (R76). -/
def assemble (line : Asm) : Option Word := if line.wellFormed then some line.toWord else none

/-- The disassembler: an op-14 word with CIR[11] = 1 as its slot's mnemonic, slots 6 and 7 as `.word` (R76). -/
def disassemble (w : Word) : Asm :=
  match decode w with
  | .stp imm12 => .stp imm12.toNat
  | .addRR d n m => .addRR d n m
  | .addImm d imm8 => .addImm d imm8.toNat
  | .subRR d n m => .subRR d n m
  | .subImm d imm8 => .subImm d imm8.toNat
  | .movImm d imm8 => .movImm d imm8.toNat
  | .cmpImm n imm8 => .cmpImm n imm8.toNat
  | .ldr d a imm4 => .ldr d a (byteOffset imm4)
  | .str n a imm4 => .str n a (byteOffset imm4)
  | .nan d n m => .nan d n m
  | .nor d n m => .nor d n m
  | .lsl d n imm4 => .lsl d n (shiftAmount imm4)
  | .lsr d n imm4 => .lsr d n (shiftAmount imm4)
  | .branch0 cond a imm3 => .branch0 cond.toNat a imm3.toNat
  | .branch1 cond imm7 => .branch1 cond.toNat imm7.toNat
  | .and d n => .and d n
  | .orr d n => .orr d n
  | .xor d n => .xor d n
  | .not d n => .not d n
  | .ldb d n => .ldb d n
  | .stb d n => .stb d n
  | .op14Slot6 _ _ => .word w
  | .op14Slot7 _ _ => .word w
  | .int cond index => .int cond.toNat index.toNat

/-- A register's name; PC, LR and FR are other names of R15, R13 and R14 (R76). -/
def regText (r : RegIdx) : String := "R" ++ toString r.val

/-- An immediate, with its # (R76). -/
def immText (k : Nat) : String := "#" ++ toString k

/-- A line of three registers. -/
def text3 (name : String) (d n m : RegIdx) : String := name ++ " " ++ regText d ++ ", " ++ regText n ++ ", " ++ regText m

/-- A line of two registers. -/
def text2 (name : String) (d n : RegIdx) : String := name ++ " " ++ regText d ++ ", " ++ regText n

/-- A line of a register and an immediate. -/
def textImm (name : String) (d : RegIdx) (k : Nat) : String := name ++ " " ++ regText d ++ ", " ++ immText k

/-- A word or load/store line with an offset. -/
def textMem (name : String) (d a : RegIdx) (off : Nat) : String :=
  name ++ " " ++ regText d ++ ", [" ++ regText a ++ ", " ++ immText off ++ "]"

/-- A byte load or store line. -/
def textByte (name : String) (d n : RegIdx) : String := name ++ " " ++ regText d ++ ", [" ++ regText n ++ "]"

/-- A hexadecimal digit. -/
def hexDigit (n : Nat) : String := (["0", "1", "2", "3", "4", "5", "6", "7", "8", "9", "a", "b", "c", "d", "e", "f"][n % 16]?).getD ""

/-- A word as `0xhhhh`. -/
def hexText (w : Word) : String :=
  "0x" ++ hexDigit (w.toNat / 4096) ++ hexDigit (w.toNat / 256) ++ hexDigit (w.toNat / 16) ++ hexDigit w.toNat

/-- The text of a line (R76). -/
def Asm.text : Asm → String
  | .stp code => "STP " ++ immText code
  | .addRR d n m => text3 "ADD" d n m
  | .addImm d k => textImm "ADD" d k
  | .subRR d n m => text3 "SUB" d n m
  | .subImm d k => textImm "SUB" d k
  | .movImm d k => textImm "MOV" d k
  | .cmpImm n k => textImm "CMP" n k
  | .ldr d a off => textMem "LDR" d a off
  | .str n a off => textMem "STR" n a off
  | .nan d n m => text3 "NAN" d n m
  | .nor d n m => text3 "NOR" d n m
  | .lsl d n sh => text2 "LSL" d n ++ ", " ++ immText sh
  | .lsr d n sh => text2 "LSR" d n ++ ", " ++ immText sh
  | .branch0 cond a k => "BRANCH0 " ++ immText cond ++ ", " ++ regText a ++ ", " ++ immText k
  | .branch1 cond k => "BRANCH1 " ++ immText cond ++ ", " ++ immText k
  | .and d n => text2 "AND" d n
  | .orr d n => text2 "ORR" d n
  | .xor d n => text2 "XOR" d n
  | .not d n => text2 "NOT" d n
  | .ldb d n => textByte "LDB" d n
  | .stb d n => textByte "STB" d n
  | .int cond index => "INT " ++ immText cond ++ ", " ++ immText index
  | .word w => ".word " ++ hexText w

end Sys2Proof.Machine
end

