-- ==== Sys2Proof/Safety.lean ====
section
/-! DEFINITION. The terms the statements use: the invariant of the machine, what a phase leaves unchanged, and which instructions may
write a register. -/

namespace Sys2Proof.Machine

/-! ## The invariant -/

/-- The invariant every step keeps: the parameters are among those R6 admits, the Memory is in canonical form, and no byte is listed at or
above MEM_SIZE (R41). -/
abbrev State.Inv (s : State) : Prop :=
  s.params.wellFormed = true ∧ Memory.wf s.mem ∧ Memory.within s.params.memSize s.mem

/-- The host's duty of R41 and R202 is met for every 16-bit address, and computed addresses wrap (R42): the default setting. -/
abbrev State.MemoryCoversAllAddresses (s : State) : Prop :=
  s.params.memSize = 65536 ∧ s.params.addrOverflow = .wrap

/-! ## Frames: what a phase from `s` to `t` leaves unchanged -/

/-- Every register holds what it held. -/
def RegistersKept (s t : State) : Prop := ∀ r, t.reg r = s.reg r

/-- Every register but `d` holds what it held. -/
def RegistersKeptBut (d : RegIdx) (s t : State) : Prop := ∀ r, r ≠ d → t.reg r = s.reg r

/-- Every byte of Memory reads as it read. -/
def MemoryKept (s t : State) : Prop := ∀ a, Memory.read t.mem a = Memory.read s.mem a

/-- Every byte of Memory but those at the addresses `stored` reads as it read. -/
def MemoryKeptBut (stored : List Nat) (s t : State) : Prop :=
  ∀ a, a ∉ stored → Memory.read t.mem a = Memory.read s.mem a

/-- MAR, CIR, the mark and the parameters are what they were. -/
def ControlKept (s t : State) : Prop :=
  t.mar = s.mar ∧ t.cir = s.cir ∧ t.status = s.status ∧ t.params = s.params

/-- The frame of an instruction whose one effect is to write register `d`. -/
def WritesOnlyRegister (d : RegIdx) (s t : State) : Prop :=
  RegistersKeptBut d s t ∧ MemoryKept s t ∧ t.trace = s.trace ∧ ControlKept s t

/-- The frame of an instruction whose one effect is to store bytes at the addresses `stored`. -/
def StoresOnlyAt (stored : List Nat) (s t : State) : Prop :=
  RegistersKept s t ∧ MemoryKeptBut stored s t ∧ t.trace = s.trace ∧ ControlKept s t

/-- The one effect of the phase is to append the event `e` to the trace. -/
def EmitsOnly (e : Event) (s t : State) : Prop :=
  RegistersKept s t ∧ MemoryKept s t ∧ t.trace = s.trace ++ [e] ∧ ControlKept s t

/-- The state `s` with another trace. -/
def State.withTrace (s : State) (tr : List Event) : State := { s with trace := tr }

/-! ## Word accesses -/

/-- The word at `a` can be accessed, its second byte standing at `a'` (R41 to R44). -/
def WordAt (s : State) (a a' : Word) : Prop :=
  a.toNat < s.params.memSize ∧ addr16 s (a.toNat + 1) = .ok a' ∧ a'.toNat < s.params.memSize

/-- The word access at `a` stops with the model fault `f`: the low byte out of range, else no address for the high byte, else the high
byte out of range, in this order (R41 to R44, R183). -/
def WordStop (s : State) (a : Word) (f : Fault) : Prop :=
  (s.params.memSize ≤ a.toNat ∧ f = .memOutOfRange a.toNat) ∨
  (a.toNat < s.params.memSize ∧ addr16 s (a.toNat + 1) = .error f) ∨
  (a.toNat < s.params.memSize ∧
    ∃ a', addr16 s (a.toNat + 1) = .ok a' ∧ s.params.memSize ≤ a'.toNat ∧ f = .memOutOfRange a'.toNat)

/-- LDR or STR with base `a` and offset field `imm4` stops with `f`: no effective address addr16(x[a] + imm4 * 2), or a stop of the access
there (R45, R120, R121). -/
def LoadStoreStop (s : State) (a : RegIdx) (imm4 : BitVec 4) (f : Fault) : Prop :=
  addr16 s ((s.reg a).toNat + imm4.toNat * 2) = .error f ∨
    ∃ ea, addr16 s ((s.reg a).toNat + imm4.toNat * 2) = .ok ea ∧ WordStop s ea f

/-! ## Which instructions write a register or Memory -/

/-- The slot of an instruction of primary opcode 14 (R69). -/
def Instr.slot : Instr → Option (Fin 8)
  | .and _ _ => some 0
  | .orr _ _ => some 1
  | .xor _ _ => some 2
  | .not _ _ => some 3
  | .ldb _ _ => some 4
  | .stb _ _ => some 5
  | .op14Slot6 _ _ => some 6
  | .op14Slot7 _ _ => some 7
  | _ => none

/-- The operation writes its destination register (R23, R151 to R158). -/
def Op14Op.writesRegister : Op14Op → Bool
  | .and => true
  | .orr => true
  | .xor => true
  | .not => true
  | .ldb => true
  | .stb => false
  | .unlisted => false

/-- The destination of an op-14 slot under a map, if its operation has one. -/
def slotDestination (map : Vector Op14Op 8) (slot : Fin 8) (d : RegIdx) : Option RegIdx :=
  if Op14Op.writesRegister map[slot] then some d else none

/-- The register an instruction writes, if it writes one: the list of R23. -/
def destination (map : Vector Op14Op 8) : Instr → Option RegIdx
  | .addRR d _ _ => some d
  | .addImm d _ => some d
  | .subRR d _ _ => some d
  | .subImm d _ => some d
  | .movImm d _ => some d
  | .ldr d _ _ => some d
  | .nan d _ _ => some d
  | .nor d _ _ => some d
  | .lsl d _ _ => some d
  | .lsr d _ _ => some d
  | .and d _ => slotDestination map 0 d
  | .orr d _ => slotDestination map 1 d
  | .xor d _ => slotDestination map 2 d
  | .not d _ => slotDestination map 3 d
  | .ldb d _ => slotDestination map 4 d
  | .stb d _ => slotDestination map 5 d
  | .op14Slot6 d _ => slotDestination map 6 d
  | .op14Slot7 d _ => slotDestination map 7 d
  | .stp _ => none
  | .cmpImm _ _ => none
  | .str _ _ _ => none
  | .branch0 _ _ _ => none
  | .branch1 _ _ => none
  | .int _ _ => none

/-- The instruction stores to Memory: STR, and a slot mapped to STB (R48, R93). -/
def storesToMemory (map : Vector Op14Op 8) (i : Instr) : Bool :=
  match i with
  | .str _ _ _ => true
  | _ => match Instr.slot i with
    | some slot => decide (map[slot] = .stb)
    | none => false

end Sys2Proof.Machine
end

