-- ==== Sys2Proof/Certificates/Slice0/Obligations.lean ====
section
/-! DEFINITION. The statements for the provers, each with the rules of spec/ it formalises. -/

open Sys2Proof Sys2Proof.Machine

/-! ## Arithmetic and move (42_arithmetic.md) -/

/-- R110: ADD (reg,reg) is decoded from its words, completes, writes the sum mod 2^16 and nothing else. -/
def Obligations.AddRegWraps : Prop :=
  (∀ w : Word, w &&& 0xf000 = 0x1000 → decode w = .addRR (regField w 8) (regField w 4) (regField w 0)) ∧
  ∀ d n m s, ∃ t, exec (.addRR d n m) s = .next t ∧
    (t.reg d).toNat = ((s.reg n).toNat + (s.reg m).toNat) % 65536 ∧ WritesOnlyRegister d s t

/-- R111: ADD (imm) adds the zero-extended imm8 to its destination, mod 2^16. -/
def Obligations.AddImmWraps : Prop :=
  (∀ w : Word, w &&& 0xf000 = 0x2000 → decode w = .addImm (regField w 8) (w.extractLsb' 0 8)) ∧
  ∀ d (imm8 : BitVec 8) s, ∃ t, exec (.addImm d imm8) s = .next t ∧
    (t.reg d).toNat = ((s.reg d).toNat + imm8.toNat) % 65536 ∧ WritesOnlyRegister d s t

/-- R112: SUB (reg,reg) writes x[rN] - x[rM] mod 2^16. -/
def Obligations.SubRegWraps : Prop :=
  (∀ w : Word, w &&& 0xf000 = 0x3000 → decode w = .subRR (regField w 8) (regField w 4) (regField w 0)) ∧
  ∀ d n m s, ∃ t, exec (.subRR d n m) s = .next t ∧
    ((t.reg d).toNat : Int) = (((s.reg n).toNat : Int) - ((s.reg m).toNat : Int)) % 65536 ∧ WritesOnlyRegister d s t

/-- R113: SUB (imm) subtracts the zero-extended imm8 from its destination, mod 2^16. -/
def Obligations.SubImmWraps : Prop :=
  (∀ w : Word, w &&& 0xf000 = 0x4000 → decode w = .subImm (regField w 8) (w.extractLsb' 0 8)) ∧
  ∀ d (imm8 : BitVec 8) s, ∃ t, exec (.subImm d imm8) s = .next t ∧
    ((t.reg d).toNat : Int) = (((s.reg d).toNat : Int) - (imm8.toNat : Int)) % 65536 ∧ WritesOnlyRegister d s t

/-- R114: MOV (imm) writes the zero-extended imm8, so the high byte becomes 0. -/
def Obligations.MovImmZeroExtends : Prop :=
  (∀ w : Word, w &&& 0xf000 = 0x5000 → decode w = .movImm (regField w 8) (w.extractLsb' 0 8)) ∧
  ∀ d (imm8 : BitVec 8) s, ∃ t, exec (.movImm d imm8) s = .next t ∧
    (t.reg d).toNat = imm8.toNat ∧ WritesOnlyRegister d s t

/-! ## Diagnostic (41_diagnostic.md) -/

/-- R100: STP emits Stop(imm12) and does nothing else. -/
def Obligations.StpEmitsStopAlone : Prop :=
  (∀ w : Word, w &&& 0xf000 = 0x0000 → decode w = .stp (w.extractLsb' 0 12)) ∧
  ∀ (imm12 : BitVec 12) s, ∃ t, exec (.stp imm12) s = .next t ∧ EmitsOnly (.stop imm12) s t

/-- R101: CMP (imm) emits Compare(rN, x[rN], imm8) and does nothing else. -/
def Obligations.CmpEmitsCompareAlone : Prop :=
  (∀ w : Word, w &&& 0xf000 = 0x6000 → decode w = .cmpImm (regField w 8) (w.extractLsb' 0 8)) ∧
  ∀ n (imm8 : BitVec 8) s, ∃ t, exec (.cmpImm n imm8) s = .next t ∧ EmitsOnly (.compare n (s.reg n) imm8) s t

/-! ## Word load and store (43_load_store.md) -/

/-- R120, R45, R71: LDR loads the little-endian word at addr16(x[rA] + imm4 * 2), and stops exactly on the model faults of the access. -/
def Obligations.LdrLoadsLittleEndianWord : Prop :=
  (∀ w : Word, w &&& 0xf000 = 0x7000 → decode w = .ldr (regField w 8) (regField w 4) (w.extractLsb' 0 4)) ∧
  (∀ d a (imm4 : BitVec 4) s ea ea', addr16 s ((s.reg a).toNat + imm4.toNat * 2) = .ok ea → WordAt s ea ea' →
    ∃ t, exec (.ldr d a imm4) s = .next t ∧
      (t.reg d).toNat = 256 * (Memory.read s.mem ea'.toNat).toNat + (Memory.read s.mem ea.toNat).toNat ∧
      WritesOnlyRegister d s t) ∧
  ∀ d a (imm4 : BitVec 4) s f, exec (.ldr d a imm4) s = .fault f ↔ LoadStoreStop s a imm4 f

/-- R121, R45, R71: STR stores the register little-endian at addr16(x[rA] + imm4 * 2) and changes no other byte, and stops exactly on the
model faults of the access. -/
def Obligations.StrStoresLittleEndianWord : Prop :=
  (∀ w : Word, w &&& 0xf000 = 0x8000 → decode w = .str (regField w 8) (regField w 4) (w.extractLsb' 0 4)) ∧
  (∀ n a (imm4 : BitVec 4) s ea ea', Memory.wf s.mem → addr16 s ((s.reg a).toNat + imm4.toNat * 2) = .ok ea → WordAt s ea ea' →
    ∃ t, exec (.str n a imm4) s = .next t ∧
      (Memory.read t.mem ea.toNat).toNat = (s.reg n).toNat % 256 ∧
      (Memory.read t.mem ea'.toNat).toNat = (s.reg n).toNat / 256 ∧
      StoresOnlyAt [ea.toNat, ea'.toNat] s t) ∧
  ∀ n a (imm4 : BitVec 4) s f, exec (.str n a imm4) s = .fault f ↔ LoadStoreStop s a imm4 f

/-- R122: a word stored by STR is the word LDR loads with the same base and offset. -/
def Obligations.StoredWordLoadsBack : Prop :=
  ∀ n d a (imm4 : BitVec 4) s t, Memory.wf s.mem → exec (.str n a imm4) s = .next t →
    ∃ u, exec (.ldr d a imm4) t = .next u ∧ u.reg d = s.reg n

/-! ## Logic and shifts (44_logic_shift.md) -/

/-- R130: every bit of NAN's result is the NAND of the operands' bits. -/
def Obligations.NanIsBitwiseNand : Prop :=
  (∀ w : Word, w &&& 0xf000 = 0x9000 → decode w = .nan (regField w 8) (regField w 4) (regField w 0)) ∧
  ∀ d n m s, ∃ t, exec (.nan d n m) s = .next t ∧
    (∀ k, k < 16 → (t.reg d).getLsbD k = !((s.reg n).getLsbD k && (s.reg m).getLsbD k)) ∧ WritesOnlyRegister d s t

/-- R131: every bit of NOR's result is the NOR of the operands' bits. -/
def Obligations.NorIsBitwiseNor : Prop :=
  (∀ w : Word, w &&& 0xf000 = 0xa000 → decode w = .nor (regField w 8) (regField w 4) (regField w 0)) ∧
  ∀ d n m s, ∃ t, exec (.nor d n m) s = .next t ∧
    (∀ k, k < 16 → (t.reg d).getLsbD k = !((s.reg n).getLsbD k || (s.reg m).getLsbD k)) ∧ WritesOnlyRegister d s t

/-- R132: LSL multiplies by 2^(imm4+1), mod 2^16. -/
def Obligations.LslMultipliesModTwoPow16 : Prop :=
  (∀ w : Word, w &&& 0xf000 = 0xb000 → decode w = .lsl (regField w 8) (regField w 4) (w.extractLsb' 0 4)) ∧
  ∀ d n (imm4 : BitVec 4) s, ∃ t, exec (.lsl d n imm4) s = .next t ∧
    (t.reg d).toNat = (s.reg n).toNat * 2 ^ (imm4.toNat + 1) % 65536 ∧ WritesOnlyRegister d s t

/-- R133: LSR divides by 2^(imm4+1), rounding down. -/
def Obligations.LsrDividesByPowerOfTwo : Prop :=
  (∀ w : Word, w &&& 0xf000 = 0xc000 → decode w = .lsr (regField w 8) (regField w 4) (w.extractLsb' 0 4)) ∧
  ∀ d n (imm4 : BitVec 4) s, ∃ t, exec (.lsr d n imm4) s = .next t ∧
    (t.reg d).toNat = (s.reg n).toNat / 2 ^ (imm4.toNat + 1) ∧ WritesOnlyRegister d s t

/-- R134: LSL then LSR by the same amount gives the value back when no bit was shifted out. -/
def Obligations.ShiftLeftThenRightRestores : Prop :=
  ∀ d d' n (imm4 : BitVec 4) s, (s.reg n).toNat < 2 ^ (16 - (imm4.toNat + 1)) →
    ∃ t u, exec (.lsl d n imm4) s = .next t ∧ exec (.lsr d' d imm4) t = .next u ∧ u.reg d' = s.reg n

/-! ## Stubs (45_branch.md, 47_interrupt.md) -/

/-- R140: BRANCH0 by STUB_POLICY: the Unimplemented event alone, or the refusal. -/
def Obligations.Branch0FollowsStubPolicy : Prop :=
  (∀ w : Word, w &&& 0xf800 = 0xd000 → decode w = .branch0 (w.extractLsb' 7 4) (regField w 3) (w.extractLsb' 0 3)) ∧
  (∀ cond a imm3 s, s.params.stubPolicy = .nop →
    ∃ t, exec (.branch0 cond a imm3) s = .next t ∧ EmitsOnly (.unimplemented .branch0 s.cir) s t) ∧
  ∀ cond a imm3 s, s.params.stubPolicy = .refuse → exec (.branch0 cond a imm3) s = .refused (.stub .branch0 s.cir)

/-- R141: BRANCH1 by STUB_POLICY: the Unimplemented event alone, or the refusal. -/
def Obligations.Branch1FollowsStubPolicy : Prop :=
  (∀ w : Word, w &&& 0xf800 = 0xd800 → decode w = .branch1 (w.extractLsb' 7 4) (w.extractLsb' 0 7)) ∧
  (∀ cond imm7 s, s.params.stubPolicy = .nop →
    ∃ t, exec (.branch1 cond imm7) s = .next t ∧ EmitsOnly (.unimplemented .branch1 s.cir) s t) ∧
  ∀ cond imm7 s, s.params.stubPolicy = .refuse → exec (.branch1 cond imm7) s = .refused (.stub .branch1 s.cir)

/-- R170: INT by STUB_POLICY: the Unimplemented event alone, or the refusal; it takes no trap. -/
def Obligations.IntFollowsStubPolicy : Prop :=
  (∀ w : Word, w &&& 0xf000 = 0xf000 → decode w = .int (w.extractLsb' 8 4) (w.extractLsb' 0 8)) ∧
  (∀ cond index s, s.params.stubPolicy = .nop →
    ∃ t, exec (.int cond index) s = .next t ∧ EmitsOnly (.unimplemented .int s.cir) s t) ∧
  ∀ cond index s, s.params.stubPolicy = .refuse → exec (.int cond index) s = .refused (.stub .int s.cir)

/-! ## The two-register family (46_two_register.md). Each premise on OP14_MAP is what D9 asks a claim about op 14 to name.
The statements of one operation stand at its default slot; Op14SlotRunsMappedOperation gives every operation at every slot. -/

/-- R151: AND, where OP14_MAP gives slot 0 the operation AND (the default). -/
def Obligations.AndIsBitwiseAnd : Prop :=
  (∀ w : Word, w &&& 0xf700 = 0xe000 → decode w = .and (regField w 4) (regField w 0)) ∧
  ∀ d n s, s.params.op14Map[(0 : Fin 8)] = .and → ∃ t, exec (.and d n) s = .next t ∧
    (∀ k, k < 16 → (t.reg d).getLsbD k = ((s.reg d).getLsbD k && (s.reg n).getLsbD k)) ∧ WritesOnlyRegister d s t

/-- R152: ORR, where OP14_MAP gives slot 1 the operation ORR (the default). -/
def Obligations.OrrIsBitwiseOr : Prop :=
  (∀ w : Word, w &&& 0xf700 = 0xe100 → decode w = .orr (regField w 4) (regField w 0)) ∧
  ∀ d n s, s.params.op14Map[(1 : Fin 8)] = .orr → ∃ t, exec (.orr d n) s = .next t ∧
    (∀ k, k < 16 → (t.reg d).getLsbD k = ((s.reg d).getLsbD k || (s.reg n).getLsbD k)) ∧ WritesOnlyRegister d s t

/-- R153: XOR, where OP14_MAP gives slot 2 the operation XOR (the default). -/
def Obligations.XorIsBitwiseXor : Prop :=
  (∀ w : Word, w &&& 0xf700 = 0xe200 → decode w = .xor (regField w 4) (regField w 0)) ∧
  ∀ d n s, s.params.op14Map[(2 : Fin 8)] = .xor → ∃ t, exec (.xor d n) s = .next t ∧
    (∀ k, k < 16 → (t.reg d).getLsbD k = ((s.reg d).getLsbD k ^^ (s.reg n).getLsbD k)) ∧ WritesOnlyRegister d s t

/-- R154: NOT, where OP14_MAP gives slot 3 the operation NOT (the default); applied twice it gives the value back. -/
def Obligations.NotComplementsAndIsInvolutive : Prop :=
  (∀ w : Word, w &&& 0xf700 = 0xe300 → decode w = .not (regField w 4) (regField w 0)) ∧
  (∀ d n s, s.params.op14Map[(3 : Fin 8)] = .not → ∃ t, exec (.not d n) s = .next t ∧
    (t.reg d).toNat = 65535 - (s.reg n).toNat ∧ WritesOnlyRegister d s t) ∧
  ∀ d e n s, s.params.op14Map[(3 : Fin 8)] = .not →
    ∃ t u, exec (.not d n) s = .next t ∧ exec (.not e d) t = .next u ∧ u.reg e = s.reg n

/-- R155: LDB, where OP14_MAP gives slot 4 the operation LDB (the default): the zero-extended byte at x[rN], or the model fault. -/
def Obligations.LdbLoadsZeroExtendedByte : Prop :=
  (∀ w : Word, w &&& 0xf700 = 0xe400 → decode w = .ldb (regField w 4) (regField w 0)) ∧
  (∀ d n s, s.params.op14Map[(4 : Fin 8)] = .ldb → (s.reg n).toNat < s.params.memSize →
    ∃ t, exec (.ldb d n) s = .next t ∧
      (t.reg d).toNat = (Memory.read s.mem (s.reg n).toNat).toNat ∧ WritesOnlyRegister d s t) ∧
  ∀ d n s, s.params.op14Map[(4 : Fin 8)] = .ldb → s.params.memSize ≤ (s.reg n).toNat →
    exec (.ldb d n) s = .fault (.memOutOfRange (s.reg n).toNat)

/-- R156: STB, where OP14_MAP gives slot 5 the operation STB (the default): the low byte of x[rD] at x[rN] and no other byte, or the
model fault. -/
def Obligations.StbStoresLowByte : Prop :=
  (∀ w : Word, w &&& 0xf700 = 0xe500 → decode w = .stb (regField w 4) (regField w 0)) ∧
  (∀ d n s, s.params.op14Map[(5 : Fin 8)] = .stb → Memory.wf s.mem → (s.reg n).toNat < s.params.memSize →
    ∃ t, exec (.stb d n) s = .next t ∧
      (Memory.read t.mem (s.reg n).toNat).toNat = (s.reg d).toNat % 256 ∧ StoresOnlyAt [(s.reg n).toNat] s t) ∧
  ∀ d n s, s.params.op14Map[(5 : Fin 8)] = .stb → s.params.memSize ≤ (s.reg n).toNat →
    exec (.stb d n) s = .fault (.memOutOfRange (s.reg n).toNat)

/-- R158: slots 6 and 7, where OP14_MAP leaves them unlisted (the default): no change at all under nop, the refusal under refuse. -/
def Obligations.UnlistedSlotsFollowPolicy : Prop :=
  (∀ w : Word, (w &&& 0xf700 = 0xe600 → decode w = .op14Slot6 (regField w 4) (regField w 0)) ∧
    (w &&& 0xf700 = 0xe700 → decode w = .op14Slot7 (regField w 4) (regField w 0))) ∧
  (∀ d n s, s.params.op14Map[(6 : Fin 8)] = .unlisted →
    (s.params.op14Unlisted = .nop → exec (.op14Slot6 d n) s = .next s) ∧
    (s.params.op14Unlisted = .refuse → exec (.op14Slot6 d n) s = .refused (.op14Unlisted s.cir))) ∧
  ∀ d n s, s.params.op14Map[(7 : Fin 8)] = .unlisted →
    (s.params.op14Unlisted = .nop → exec (.op14Slot7 d n) s = .next s) ∧
    (s.params.op14Unlisted = .refuse → exec (.op14Slot7 d n) s = .refused (.op14Unlisted s.cir))

/-- R150: every op-14 word runs the operation OP14_MAP gives its slot, whichever slot that is: AND (R151), ORR (R152), XOR (R153),
NOT (R154), LDB (R155), STB (R156), or what OP14_UNLISTED says (R158). -/
def Obligations.Op14SlotRunsMappedOperation : Prop :=
  (∀ w : Word, primaryOpcode w = 14 → decode w = twoRegister (slotField w) (regField w 4) (regField w 0)) ∧
  ∀ (slot : Fin 8) d n s,
    (s.params.op14Map[slot] = .and → ∃ t, exec (twoRegister slot d n) s = .next t ∧
      (∀ k, k < 16 → (t.reg d).getLsbD k = ((s.reg d).getLsbD k && (s.reg n).getLsbD k)) ∧ WritesOnlyRegister d s t) ∧
    (s.params.op14Map[slot] = .orr → ∃ t, exec (twoRegister slot d n) s = .next t ∧
      (∀ k, k < 16 → (t.reg d).getLsbD k = ((s.reg d).getLsbD k || (s.reg n).getLsbD k)) ∧ WritesOnlyRegister d s t) ∧
    (s.params.op14Map[slot] = .xor → ∃ t, exec (twoRegister slot d n) s = .next t ∧
      (∀ k, k < 16 → (t.reg d).getLsbD k = ((s.reg d).getLsbD k ^^ (s.reg n).getLsbD k)) ∧ WritesOnlyRegister d s t) ∧
    (s.params.op14Map[slot] = .not → ∃ t, exec (twoRegister slot d n) s = .next t ∧
      (t.reg d).toNat = 65535 - (s.reg n).toNat ∧ WritesOnlyRegister d s t) ∧
    (s.params.op14Map[slot] = .ldb → (s.reg n).toNat < s.params.memSize → ∃ t, exec (twoRegister slot d n) s = .next t ∧
      (t.reg d).toNat = (Memory.read s.mem (s.reg n).toNat).toNat ∧ WritesOnlyRegister d s t) ∧
    (s.params.op14Map[slot] = .stb → Memory.wf s.mem → (s.reg n).toNat < s.params.memSize →
      ∃ t, exec (twoRegister slot d n) s = .next t ∧
        (Memory.read t.mem (s.reg n).toNat).toNat = (s.reg d).toNat % 256 ∧ StoresOnlyAt [(s.reg n).toNat] s t) ∧
    (s.params.op14Map[slot] = .ldb ∨ s.params.op14Map[slot] = .stb → s.params.memSize ≤ (s.reg n).toNat →
      exec (twoRegister slot d n) s = .fault (.memOutOfRange (s.reg n).toNat)) ∧
    (s.params.op14Map[slot] = .unlisted → s.params.op14Unlisted = .nop → exec (twoRegister slot d n) s = .next s) ∧
    (s.params.op14Map[slot] = .unlisted → s.params.op14Unlisted = .refuse →
      exec (twoRegister slot d n) s = .refused (.op14Unlisted s.cir))

/-- R157, which the spec derives from R150: an op-14 word and its alias with CIR[11] inverted have the same effect. The next states differ in
the word CIR holds alone, the faults are the same, and each refusal records its own word (R158, W6). That the word of a refusal is read from
CIR, and that CIR alone holds CIR[11], is the model's deduction (log 10, log 14). -/
def Obligations.Op14AliasesHaveSameEffect : Prop :=
  ∀ (w : Word) (s : State), primaryOpcode w = 14 →
    (∀ t, execute (s.setCir w) = .next t → execute (s.setCir (w ^^^ 0x0800)) = .next (t.setCir (w ^^^ 0x0800))) ∧
    (∀ f, execute (s.setCir w) = .fault f → execute (s.setCir (w ^^^ 0x0800)) = .fault f) ∧
    ∀ r, execute (s.setCir w) = .refused r →
      r = .op14Unlisted w ∧ execute (s.setCir (w ^^^ 0x0800)) = .refused (.op14Unlisted (w ^^^ 0x0800))

/-- R159: a byte stored by STB is what LDB loads from the same address register, with a zero high byte, whichever slots OP14_MAP gives
the two operations. -/
def Obligations.StoredByteLoadsBack : Prop :=
  ∀ (stbSlot ldbSlot : Fin 8) d e n s t, s.params.op14Map[stbSlot] = .stb → s.params.op14Map[ldbSlot] = .ldb → Memory.wf s.mem →
    exec (twoRegister stbSlot d n) s = .next t →
    ∃ u, exec (twoRegister ldbSlot e n) t = .next u ∧ (u.reg e).toNat = (s.reg d).toNat % 256

/-! ## Memory (20_memory.md) -/

/-- R42: addr16 keeps an address of 16 bits, and takes a larger one mod 2^16 or faults, by ADDR_OVERFLOW. -/
def Obligations.Addr16FollowsOverflowPolicy : Prop :=
  ∀ s a, (a ≤ 65535 → ∃ w, addr16 s a = .ok w ∧ w.toNat = a) ∧
    (65535 < a → s.params.addrOverflow = .wrap → ∃ w, addr16 s a = .ok w ∧ w.toNat = a % 65536) ∧
    (65535 < a → s.params.addrOverflow = .fault → addr16 s a = .error (.addrOverflow a))

/-- R47: LDB sees the little-endian halves of a word STR wrote, and LDR sees a byte STB wrote as its high byte, whichever slots OP14_MAP
gives LDB and STB. -/
def Obligations.MixedWidthAccessesAreLittleEndian : Prop :=
  (∀ (slot : Fin 8) n a (imm4 : BitVec 4) d r s t ea ea', s.params.op14Map[slot] = .ldb → Memory.wf s.mem →
    addr16 s ((s.reg a).toNat + imm4.toNat * 2) = .ok ea → addr16 s (ea.toNat + 1) = .ok ea' → exec (.str n a imm4) s = .next t →
    (s.reg r = ea → ∃ u, exec (twoRegister slot d r) t = .next u ∧ (u.reg d).toNat = (s.reg n).toNat % 256) ∧
    (s.reg r = ea' → ∃ u, exec (twoRegister slot d r) t = .next u ∧ (u.reg d).toNat = (s.reg n).toNat / 256)) ∧
  ∀ (slot : Fin 8) d n e a (imm4 : BitVec 4) s t ea, s.params.op14Map[slot] = .stb → Memory.wf s.mem →
    addr16 s ((s.reg a).toNat + imm4.toNat * 2) = .ok ea → ea.toNat < s.params.memSize →
    addr16 s (ea.toNat + 1) = .ok (s.reg n) → exec (twoRegister slot d n) s = .next t →
    ∃ u, exec (.ldr e a imm4) t = .next u ∧
      (u.reg e).toNat = 256 * ((s.reg d).toNat % 256) + (Memory.read s.mem ea.toNat).toNat

/-- R55: a word STR writes over the next instruction is the word the very next fetch reads, and CIR still holds the STR. -/
def Obligations.StoreIsSeenByNextFetch : Prop :=
  ∀ n a (imm4 : BitVec 4) s t, Memory.wf s.mem → addr16 s ((s.reg a).toNat + imm4.toNat * 2) = .ok s.pc →
    exec (.str n a imm4) s = .next t → t.cir = s.cir ∧ ∃ u, fetch t = .ok u ∧ u.cir = s.reg n

/-- Only STR, and an op-14 slot mapped to STB, change Memory (R48, R93). -/
def Obligations.OnlyStoresChangeMemory : Prop :=
  ∀ i s t, exec i s = .next t → storesToMemory s.params.op14Map i = false → MemoryKept s t

/-! ## Encoding (30_encoding.md) -/

/-- Words from the decode checks of 95_test_vectors.md, decoded as written there. -/
def Obligations.SampleWordsDecode : Prop :=
  decode 0x0abc = .stp 0xabc ∧ decode 0x1123 = .addRR 1 2 3 ∧ decode 0x6342 = .cmpImm 3 0x42 ∧
  decode 0x7a5f = .ldr 10 5 15 ∧ decode 0xb21f = .lsl 2 1 15 ∧ decode 0xd123 = .branch0 2 4 3 ∧
  decode 0xdfff = .branch1 0xf 0x7f ∧ decode 0xe812 = .and 1 2 ∧ decode 0xf105 = .int 1 5

/-- Decoding the word, or the bytes, of any instruction gives the instruction back. -/
def Obligations.DecodeOfEncodeIsIdentity : Prop :=
  ∀ i, decode (encode i) = i ∧ decodeBytes (encodeBytes i) = .ok (i, [])

/-- Encoding the instruction of any word gives the word back, but for CIR[11] under primary opcode 14, the only ignored bit (R74, R69). That
the encoder emits this bit as 0 is its own choice, the assembler's of R76, made for slots 6 and 7 as well (log 14). -/
def Obligations.EncodeOfDecodeLosesOnlyIgnoredBit : Prop :=
  ∀ w : Word, encode (decode w) = if primaryOpcode w = 14 then w &&& 0xf7ff else w

/-- Every word has the fixed bits of exactly one row of the opcode table, the row of the instruction it decodes to (R72 to R74). -/
def Obligations.EveryWordMatchesExactlyOneRow : Prop :=
  ∀ (w : Word) (i : Instr), i.row.admits w = true ↔ i.row = (decode w).row

/-- Disassembling a word and assembling the line gives the word back, an op-14 alias of a named slot with CIR[11] = 0 (R76). -/
def Obligations.AssembleOfDisassembleIsWord : Prop :=
  ∀ w : Word, assemble (disassemble w) =
    some (if primaryOpcode w = 14 ∧ slotField w < 6 then w &&& 0xf7ff else w)

/-! ## Fetch, dispatch, step (40_fetch_decode.md) -/

/-- R80, R82: a fetch whose two bytes are in range sets MAR to the PC, CIR to the little-endian word, advances the PC by 2 mod 2^16 and
changes nothing else. -/
def Obligations.FetchReadsWordAndAdvancesPc : Prop :=
  ∀ s a', WordAt s s.pc a' → ∃ t, fetch s = .ok t ∧ t.mar = s.pc ∧
    t.cir.toNat = 256 * (Memory.read s.mem a'.toNat).toNat + (Memory.read s.mem s.pc.toNat).toNat ∧
    t.pc.toNat = (s.pc.toNat + 2) % 65536 ∧ RegistersKeptBut 15 s t ∧ MemoryKept s t ∧ t.trace = s.trace ∧
    t.status = s.status ∧ t.params = s.params

/-- A fetch stops exactly on the model faults of its two byte reads, in their order (R41, R42, R183). -/
def Obligations.FetchStopsInOrder : Prop :=
  ∀ s f, fetch s = .error f ↔ WordStop s s.pc f

/-- A step of a running state whose instruction bytes are in range runs the instruction those bytes decode to, from the state the fetch
leaves: MAR the old PC, CIR the word, R15 the old PC plus 2 (R80, R83, R85, R89). -/
def Obligations.StepRunsDecodedInstruction : Prop :=
  ∀ s a' i, s.status = .running → WordAt s s.pc a' →
    decodeBytes [Memory.read s.mem s.pc.toNat, Memory.read s.mem a'.toNat] = .ok (i, []) →
    ∃ u, step s = exec i u ∧ u.mar = s.pc ∧ u.cir = joinBytes (Memory.read s.mem s.pc.toNat) (Memory.read s.mem a'.toNat) ∧
      u.pc = s.pc + 2 ∧ RegistersKeptBut 15 s u ∧ u.mem = s.mem ∧ u.trace = s.trace ∧ u.status = s.status ∧
      u.params = s.params

/-- An instruction writes no general register but its destination (R23). -/
def Obligations.OnlyDestinationRegisterIsWritten : Prop :=
  ∀ i s t r, exec i s = .next t → destination s.params.op14Map i ≠ some r → t.reg r = s.reg r

/-- No instruction writes CIR (R84) or MAR (R27, R85), none that completes sets the mark (R181), and none writes the parameters, which
are a part of State by the model's choice alone (R34, log 1). -/
def Obligations.ExecuteKeepsControlState : Prop :=
  ∀ i s t, exec i s = .next t → ControlKept s t

/-- Over a step the PC advances by 2 mod 2^16 unless the instruction's destination is R15, and the next fetch is from the PC (R24, R87). -/
def Obligations.PcMovesByTwoOrByDestination : Prop :=
  ∀ s t u, fetch s = .ok u → step s = .next t →
    (destination s.params.op14Map (decode u.cir) ≠ some 15 → t.pc.toNat = (s.pc.toNat + 2) % 65536) ∧
    ∀ v, fetch t = .ok v → v.mar = t.pc

/-- The trace is output only: a step appends at most one event, and with any other trace before it the step does the same (R91, R102). -/
def Obligations.TraceIsNeverRead : Prop :=
  (∀ s t, step s = .next t → ∃ ev : List Event, t.trace = s.trace ++ ev ∧ ev.length ≤ 1 ∧
    ∀ tr, step (s.withTrace tr) = .next (t.withTrace (tr ++ ev))) ∧
  (∀ s f tr, step s = .fault f → step (s.withTrace tr) = .fault f) ∧
  ∀ s r tr, step s = .refused r → step (s.withTrace tr) = .refused r

/-! ## Model faults, refusals, marks (60_exceptions.md) -/

/-- A refusal is one of the two of R181, under the setting that asks for it, by an instruction that may raise it. -/
def Obligations.RefusalsAreTheTwoListed : Prop :=
  ∀ i s r, exec i s = .refused r →
    (r = .op14Unlisted s.cir ∧ s.params.op14Unlisted = .refuse ∧
      ∃ slot d n, i = twoRegister slot d n ∧ s.params.op14Map[slot] = .unlisted) ∨
    (s.params.stubPolicy = .refuse ∧
      ((∃ cond a imm3, i = .branch0 cond a imm3 ∧ r = .stub .branch0 s.cir) ∨
        (∃ cond imm7, i = .branch1 cond imm7 ∧ r = .stub .branch1 s.cir) ∨
        ∃ cond index, i = .int cond index ∧ r = .stub .int s.cir))

/-- A model fault of the execute phase is one of the two of R181, by an instruction that accesses Memory: a byte address at or above
MEM_SIZE, or, for LDR and STR alone, an address above 0xFFFF under ADDR_OVERFLOW = fault. -/
def Obligations.FaultsAreTheTwoListed : Prop :=
  ∀ i s f, exec i s = .fault f →
    (∃ a, f = .memOutOfRange a ∧ s.params.memSize ≤ a ∧ a < 65536 ∧
      ((∃ d r imm4, i = .ldr d r imm4 ∨ i = .str d r imm4) ∨
        ∃ slot d n, i = twoRegister slot d n ∧ (s.params.op14Map[slot] = .ldb ∨ s.params.op14Map[slot] = .stb))) ∨
    (∃ a, f = .addrOverflow a ∧ s.params.addrOverflow = .fault ∧ 65535 < a ∧ ∃ d r imm4, i = .ldr d r imm4 ∨ i = .str d r imm4)

/-- A state that carries a mark takes no further step by any request, and keeps its mark (R8, R181). That step answers such a state with the
fault or the refusal of its mark is the model's choice (log 7). -/
def Obligations.MarkedStateTakesNoStep : Prop :=
  (∀ s f, s.status = .faulted f → step s = .fault f ∧ requestFetch s = s ∧ requestExecute s = s) ∧
  ∀ s r, s.status = .refused r → step s = .refused r ∧ requestFetch s = s ∧ requestExecute s = s

/-- With a Memory of 65536 bytes and ADDR_OVERFLOW = wrap no step of a running state ends in a model fault, and the state it answers is
running with the same Memory size and setting again (R41, R42); with no policy set to refuse every step completes, in such a state with the
same policies. -/
def Obligations.FullMemoryNeverFaults : Prop :=
  (∀ s, s.MemoryCoversAllAddresses → s.status = .running →
    (∀ f, step s ≠ .fault f) ∧ ∀ t, step s = .next t → t.MemoryCoversAllAddresses ∧ t.status = .running) ∧
  ∀ s, s.MemoryCoversAllAddresses → s.status = .running → s.params.stubPolicy = .nop → s.params.op14Unlisted = .nop →
    ∃ t, step s = .next t ∧ t.MemoryCoversAllAddresses ∧ t.status = .running ∧ t.params.stubPolicy = .nop ∧
      t.params.op14Unlisted = .nop

/-! ## The invariant and reset (10_state.md, 70_reset_and_hazards.md) -/

/-- Every step keeps the invariant, from every state that has it. -/
def Obligations.StepKeepsInvariant : Prop :=
  ∀ s t, s.Inv → step s = .next t → t.Inv

/-- Every request of the host and every host write of a byte keeps the invariant. A host write below MEM_SIZE sets that byte and no other
(R202, R52, D24); at or above MEM_SIZE it changes nothing, which is the model's choice (log 11). The request CONSTRUCT is a construction
(R200) in whose Memory byte k below MEM_SIZE is the k-th byte handed over (R57). That it takes no byte at or above MEM_SIZE, keeps the
parameters and may be repeated is the model's choice (log 13; D18 has one CONSTRUCT per run), and so is what an address handed no byte
reads as (log 2). -/
def Obligations.HostRequestsKeepInvariant : Prop :=
  (∀ q s, s.Inv → (respond q s).1.Inv) ∧ (∀ s a b, s.Inv → (hostWrite s a b).Inv) ∧
  (∀ s a b, Memory.wf s.mem → a < s.params.memSize →
    Memory.read (hostWrite s a b).mem a = b ∧ StoresOnlyAt [a] s (hostWrite s a b)) ∧
  (∀ s a b, s.params.memSize ≤ a → hostWrite s a b = s) ∧
  ∀ bytes s, ∃ m, (respond (.construct bytes) s).1 = State.construct s.params m ∧
    (∀ k b, k < s.params.memSize → bytes[k]? = some b → Memory.read m k = b) ∧
    ∀ k, s.params.memSize ≤ k ∨ bytes.length ≤ k → Memory.read m k = Memory.unlisted

/-- The invariant holds after reset (with the default parameters and the model's empty Memory, log 2). -/
def Obligations.ResetHasInvariant : Prop := State.reset.Inv

/-- R33: after construction, with any parameters and any Memory contents, every register, MAR and CIR is zero, the trace is empty, no
mark is set, and the Memory is what was handed over. -/
def Obligations.ConstructionZeroesTheCore : Prop :=
  ∀ p m, (∀ r, (State.construct p m).reg r = 0) ∧ (State.construct p m).pc = 0 ∧ (State.construct p m).mar = 0 ∧
    (State.construct p m).cir = 0 ∧ (State.construct p m).trace = [] ∧ (State.construct p m).status = .running ∧
    (State.construct p m).mem = m

/-! ## Host order, run loop, dump (40_fetch_decode.md) -/

/-- The step and the host's two requests agree: the same next state, or the same reason as a mark (R89, R90, R181). -/
def Obligations.StepIsFetchThenExecuteRequest : Prop :=
  ∀ s, s.status = .running →
    (∀ t, step s = .next t → requestExecute (requestFetch s) = t ∧ t.status = .running) ∧
    (∀ f, step s = .fault f → (requestExecute (requestFetch s)).status = .faulted f) ∧
    ∀ r, step s = .refused r → (requestExecute (requestFetch s)).status = .refused r

/-- EXECUTE twice with no FETCH between runs the same word twice: CIR is kept, and an ADD (imm) adds its immediate twice (R88). -/
def Obligations.ExecuteTwiceRunsSameWordTwice : Prop :=
  (∀ s, (requestExecute s).cir = s.cir ∧ (requestExecute s).mar = s.mar) ∧
  ∀ s d (imm8 : BitVec 8), s.status = .running → decode s.cir = .addImm d imm8 →
    ((requestExecute (requestExecute s)).reg d).toNat = ((s.reg d).toNat + 2 * imm8.toNat) % 65536

/-- FETCH twice with no EXECUTE between loses the first word: the PC has advanced by 4 and CIR is the second word (R88). -/
def Obligations.FetchTwiceLosesFirstWord : Prop :=
  ∀ s, s.status = .running → (requestFetch s).status = .running → (requestFetch (requestFetch s)).status = .running →
    (requestFetch (requestFetch s)).pc = s.pc + 4 ∧ (requestFetch (requestFetch s)).mar = s.pc + 2 ∧
    readWord s (s.pc + 2) = .ok (requestFetch (requestFetch s)).cir

/-- EXECUTE before the first FETCH emits Stop(0) and changes nothing else, with any parameters and any Memory (R88). -/
def Obligations.ExecuteBeforeFetchEmitsStopZero : Prop :=
  ∀ p m, EmitsOnly (.stop 0) (State.construct p m) (requestExecute (State.construct p m))

/-- R94: MOV R2,#0x30 placed at address 0 and one cycle from construction with the default parameters. -/
def Obligations.WorkedExampleCycle : Prop :=
  ∃ t, step (State.construct defaultParams [(0, 0x30), (1, 0x52)]) = .next t ∧ t.mar = 0x0000 ∧ t.cir = 0x5230 ∧
    t.reg 2 = 0x0030 ∧ t.pc = 0x0002 ∧ (∀ r : RegIdx, r ≠ 2 → r ≠ 15 → t.reg r = 0x0000) ∧ t.trace = []

/-- The run loop (R89): no fuel, a step that goes on, a step that ends the run on STP with HALT_ON_STOP, and a step that stops. -/
def Obligations.RunLoopFollowsSteps : Prop :=
  (∀ s, run 0 s = (.outOfFuel, s)) ∧
  (∀ k s t code, step s = .next t → decode t.cir = .stp code → s.params.haltOnStop = true → run (k + 1) s = (.stopped, t)) ∧
  (∀ k s t, step s = .next t → s.params.haltOnStop = false → run (k + 1) s = run k t) ∧
  (∀ k s t, step s = .next t → (∀ code, decode t.cir ≠ .stp code) → run (k + 1) s = run k t) ∧
  (∀ k s f, s.status = .running → step s = .fault f → (run (k + 1) s).1 = .marked ∧ (run (k + 1) s).2.status = .faulted f) ∧
  ∀ k s r, s.status = .running → step s = .refused r → (run (k + 1) s).1 = .marked ∧ (run (k + 1) s).2.status = .refused r

/-- A STR that stops on its second byte leaves its low byte in the marked state (R44, vector VS5). R183 says that the faulted state may hold
the byte and that no claim can observe it: that the request EXECUTE keeps this content is the model's choice (log 7). -/
def Obligations.StoppedStrKeepsItsLowByte : Prop :=
  ∀ s n a (imm4 : BitVec 4) ea f, s.status = .running → Memory.wf s.mem → decode s.cir = .str n a imm4 →
    addr16 s ((s.reg a).toNat + imm4.toNat * 2) = .ok ea → ea.toNat < s.params.memSize → exec (.str n a imm4) s = .fault f →
    (requestExecute s).status = .faulted f ∧
      (Memory.read (requestExecute s).mem ea.toNat).toNat = (s.reg n).toNat % 256 ∧
      MemoryKeptBut [ea.toNat] s (requestExecute s)

/-- DUMP returns the 16 registers, MAR and CIR and changes no state (R92). -/
def Obligations.DumpReportsRegistersAndKeepsState : Prop :=
  ∀ s, (respond .dump s).1 = s ∧ ∃ rec, (respond .dump s).2 = some rec ∧ rec.mar = s.mar ∧ rec.cir = s.cir ∧
    ∀ r : RegIdx, rec.regs[r] = s.reg r
end

