-- ==== Sys2Proof/Laws/State.lean ====
section
/-! SUPPORT. What each update of the state does to each of its parts. -/

namespace Sys2Proof.Machine

section Reg
variable (s : State) (r r' : RegIdx) (v : Word)

@[simp] theorem reg_setReg_same : (s.setReg r v).reg r = v := by simp [State.reg, State.setReg]

theorem reg_setReg_ne (h : r' ≠ r) : (s.setReg r v).reg r' = s.reg r' := by
  have : r.val ≠ r'.val := fun e => h (Fin.ext e.symm)
  simp [State.reg, State.setReg, this]

theorem reg_setReg : (s.setReg r v).reg r' = if r' = r then v else s.reg r' := by
  split
  · subst_vars; simp
  · exact reg_setReg_ne s r r' v ‹_›

@[simp] theorem mar_setReg : (s.setReg r v).mar = s.mar := rfl
@[simp] theorem cir_setReg : (s.setReg r v).cir = s.cir := rfl
@[simp] theorem mem_setReg : (s.setReg r v).mem = s.mem := rfl
@[simp] theorem trace_setReg : (s.setReg r v).trace = s.trace := rfl
@[simp] theorem status_setReg : (s.setReg r v).status = s.status := rfl
@[simp] theorem params_setReg : (s.setReg r v).params = s.params := rfl

/-- Two states are the same if every part reads the same. -/
theorem State.ext_parts {s t : State} (hr : ∀ r, t.reg r = s.reg r) (hmar : t.mar = s.mar) (hcir : t.cir = s.cir)
    (hmem : t.mem = s.mem) (htr : t.trace = s.trace) (hst : t.status = s.status) (hp : t.params = s.params) : t = s := by
  cases s
  cases t
  simp only at hmar hcir hmem htr hst hp
  subst_vars
  congr 1
  ext k hk : 1
  exact hr ⟨k, hk⟩

end Reg

section Setters
variable (s : State) (r : RegIdx) (v : Word) (m : List Host.Cell) (st : Status) (e : Event) (tr : List Event)

@[simp] theorem reg_setMar : (s.setMar v).reg r = s.reg r := rfl
@[simp] theorem pc_setMar : (s.setMar v).pc = s.pc := rfl
@[simp] theorem mar_setMar : (s.setMar v).mar = v := rfl
@[simp] theorem cir_setMar : (s.setMar v).cir = s.cir := rfl
@[simp] theorem mem_setMar : (s.setMar v).mem = s.mem := rfl
@[simp] theorem trace_setMar : (s.setMar v).trace = s.trace := rfl
@[simp] theorem status_setMar : (s.setMar v).status = s.status := rfl
@[simp] theorem params_setMar : (s.setMar v).params = s.params := rfl

@[simp] theorem reg_setCir : (s.setCir v).reg r = s.reg r := rfl
@[simp] theorem pc_setCir : (s.setCir v).pc = s.pc := rfl
@[simp] theorem mar_setCir : (s.setCir v).mar = s.mar := rfl
@[simp] theorem cir_setCir : (s.setCir v).cir = v := rfl
@[simp] theorem mem_setCir : (s.setCir v).mem = s.mem := rfl
@[simp] theorem trace_setCir : (s.setCir v).trace = s.trace := rfl
@[simp] theorem status_setCir : (s.setCir v).status = s.status := rfl
@[simp] theorem params_setCir : (s.setCir v).params = s.params := rfl

@[simp] theorem reg_setMem : (s.setMem m).reg r = s.reg r := rfl
@[simp] theorem pc_setMem : (s.setMem m).pc = s.pc := rfl
@[simp] theorem mar_setMem : (s.setMem m).mar = s.mar := rfl
@[simp] theorem cir_setMem : (s.setMem m).cir = s.cir := rfl
@[simp] theorem mem_setMem : (s.setMem m).mem = m := rfl
@[simp] theorem trace_setMem : (s.setMem m).trace = s.trace := rfl
@[simp] theorem status_setMem : (s.setMem m).status = s.status := rfl
@[simp] theorem params_setMem : (s.setMem m).params = s.params := rfl

@[simp] theorem reg_setStatus : (s.setStatus st).reg r = s.reg r := rfl
@[simp] theorem mar_setStatus : (s.setStatus st).mar = s.mar := rfl
@[simp] theorem cir_setStatus : (s.setStatus st).cir = s.cir := rfl
@[simp] theorem mem_setStatus : (s.setStatus st).mem = s.mem := rfl
@[simp] theorem trace_setStatus : (s.setStatus st).trace = s.trace := rfl
@[simp] theorem status_setStatus : (s.setStatus st).status = st := rfl
@[simp] theorem params_setStatus : (s.setStatus st).params = s.params := rfl

@[simp] theorem reg_emit : (s.emit e).reg r = s.reg r := rfl
@[simp] theorem mar_emit : (s.emit e).mar = s.mar := rfl
@[simp] theorem cir_emit : (s.emit e).cir = s.cir := rfl
@[simp] theorem mem_emit : (s.emit e).mem = s.mem := rfl
@[simp] theorem trace_emit : (s.emit e).trace = s.trace ++ [e] := rfl
@[simp] theorem status_emit : (s.emit e).status = s.status := rfl
@[simp] theorem params_emit : (s.emit e).params = s.params := rfl

@[simp] theorem reg_withTrace : (s.withTrace tr).reg r = s.reg r := rfl
@[simp] theorem pc_withTrace : (s.withTrace tr).pc = s.pc := rfl
@[simp] theorem mar_withTrace : (s.withTrace tr).mar = s.mar := rfl
@[simp] theorem cir_withTrace : (s.withTrace tr).cir = s.cir := rfl
@[simp] theorem mem_withTrace : (s.withTrace tr).mem = s.mem := rfl
@[simp] theorem trace_withTrace : (s.withTrace tr).trace = tr := rfl
@[simp] theorem status_withTrace : (s.withTrace tr).status = s.status := rfl
@[simp] theorem params_withTrace : (s.withTrace tr).params = s.params := rfl

/-- Updates other than `emit` commute with replacing the trace. -/
theorem setReg_withTrace : (s.withTrace tr).setReg r v = (s.setReg r v).withTrace tr := rfl
theorem setMar_withTrace : (s.withTrace tr).setMar v = (s.setMar v).withTrace tr := rfl
theorem setCir_withTrace : (s.withTrace tr).setCir v = (s.setCir v).withTrace tr := rfl
theorem setMem_withTrace : (s.withTrace tr).setMem m = (s.setMem m).withTrace tr := rfl
theorem emit_withTrace : (s.withTrace tr).emit e = (s.emit e).withTrace (tr ++ [e]) := rfl

end Setters

section Frames
variable {s : State}

/-- Writing one register has that register's frame. -/
theorem setReg_writesOnly (d : RegIdx) (v : Word) : WritesOnlyRegister d s (s.setReg d v) :=
  ⟨fun r hr => reg_setReg_ne s d r v hr, fun _ => rfl, rfl, rfl, rfl, rfl, rfl⟩

/-- Emitting one event does only that. -/
theorem emit_emitsOnly (e : Event) : EmitsOnly e s (s.emit e) :=
  ⟨fun _ => rfl, fun _ => rfl, rfl, rfl, rfl, rfl, rfl⟩

end Frames

end Sys2Proof.Machine
end

