-- ==== Sys2Proof/Laws/Memory.lean ====
section
/-! SUPPORT. The laws of the Memory: a read after a write, and the canonical form kept by every operation. -/

namespace Sys2Proof.Machine

/-- A read below every listed address finds nothing listed. -/
theorem Memory.read_below {m : List Host.Cell} {a : Nat} (h : ∀ c ∈ m, a < c.1) :
    Memory.read m a = Memory.unlisted := by
  induction m with
  | nil => rfl
  | cons c rest ih =>
    obtain ⟨k, v⟩ := c
    have hk : a < k := h (k, v) (by simp)
    simp only [Memory.read, if_neg (Nat.ne_of_gt hk)]
    exact ih fun c hc => h c (by simp [hc])

/-- A write changes no other byte, in any list. -/
theorem Memory.read_write_ne (m : List Host.Cell) {a a' : Nat} (b : Byte) (h : a' ≠ a) :
    Memory.read (Memory.write m a b) a' = Memory.read m a' := by
  induction m with
  | nil =>
    simp only [Memory.write]
    split <;> simp [Memory.read, h.symm]
  | cons c rest ih =>
    obtain ⟨k, v⟩ := c
    simp only [Memory.write]
    split
    · split <;> simp [Memory.read, h.symm]
    · split
      · subst_vars
        split <;> simp [Memory.read, h.symm]
      · simp only [Memory.read, ih]

/-- A write sets its byte, in any list whose addresses rise. -/
theorem Memory.read_write_same {m : List Host.Cell} (hm : m.Pairwise (fun c c' => c.1 < c'.1)) (a : Nat) (b : Byte) :
    Memory.read (Memory.write m a b) a = b := by
  induction m with
  | nil =>
    simp only [Memory.write]
    split
    · rename_i h
      simp [Memory.read, h]
    · simp [Memory.read]
  | cons c rest ih =>
    obtain ⟨k, v⟩ := c
    have hp := List.pairwise_cons.mp hm
    have above : ∀ c ∈ rest, k < c.1 := hp.1
    simp only [Memory.write]
    split
    · rename_i hlt
      split
      · rename_i hb
        rw [hb]
        refine Memory.read_below fun c hc => ?_
        rcases List.mem_cons.mp hc with rfl | hc
        · exact hlt
        · exact Nat.lt_trans hlt (above c hc)
      · simp [Memory.read]
    · split
      · rename_i heq
        subst heq
        split
        · rename_i hb
          rw [hb]
          exact Memory.read_below above
        · simp [Memory.read]
      · rename_i hne
        simp only [Memory.read, if_neg (Ne.symm hne)]
        exact ih hp.2

/-- Reading after a write, in a canonical memory. -/
theorem Memory.read_write {m : List Host.Cell} (hm : Memory.wf m) (a a' : Nat) (b : Byte) :
    Memory.read (Memory.write m a b) a' = if a' = a then b else Memory.read m a' := by
  split
  · subst_vars; exact Memory.read_write_same hm.1 _ b
  · exact Memory.read_write_ne m b ‹_›

/-- Every entry after a write is the written one or an old one. -/
theorem Memory.mem_write {m : List Host.Cell} {a : Nat} {b : Byte} {c : Host.Cell} (h : c ∈ Memory.write m a b) :
    (c = (a, b) ∧ b ≠ Memory.unlisted) ∨ c ∈ m := by
  induction m with
  | nil =>
    simp only [Memory.write] at h
    split at h
    · simp at h
    · exact .inl ⟨by simpa using h, ‹_›⟩
  | cons d rest ih =>
    obtain ⟨k, v⟩ := d
    simp only [Memory.write] at h
    split at h
    · split at h
      · exact .inr h
      · rcases List.mem_cons.mp h with rfl | h
        · exact .inl ⟨rfl, ‹_›⟩
        · exact .inr h
    · split at h
      · split at h
        · exact .inr (List.mem_cons_of_mem _ h)
        · rcases List.mem_cons.mp h with rfl | h
          · exact .inl ⟨rfl, ‹_›⟩
          · exact .inr (List.mem_cons_of_mem _ h)
      · rcases List.mem_cons.mp h with rfl | h
        · exact .inr (by simp)
        · rcases ih h with h | h
          · exact .inl h
          · exact .inr (List.mem_cons_of_mem _ h)

/-- A write keeps the addresses rising. -/
theorem Memory.pairwise_write {m : List Host.Cell} (hm : m.Pairwise (fun c c' => c.1 < c'.1)) (a : Nat) (b : Byte) :
    (Memory.write m a b).Pairwise (fun c c' => c.1 < c'.1) := by
  induction m with
  | nil =>
    simp only [Memory.write]
    split <;> simp
  | cons c rest ih =>
    obtain ⟨k, v⟩ := c
    have hp := List.pairwise_cons.mp hm
    have above : ∀ c ∈ rest, k < c.1 := hp.1
    simp only [Memory.write]
    split
    · rename_i hlt
      split
      · exact hm
      · refine List.pairwise_cons.mpr ⟨fun c hc => ?_, hm⟩
        rcases List.mem_cons.mp hc with rfl | hc
        · exact hlt
        · exact Nat.lt_trans hlt (above c hc)
    · split
      · rename_i heq
        subst heq
        split
        · exact hp.2
        · exact List.pairwise_cons.mpr ⟨above, hp.2⟩
      · rename_i hnlt hne
        refine List.pairwise_cons.mpr ⟨fun c hc => ?_, ih hp.2⟩
        rcases Memory.mem_write hc with ⟨rfl, _⟩ | hc
        · show k < a
          omega
        · exact above c hc

/-- A write keeps the canonical form. -/
theorem Memory.wf_write {m : List Host.Cell} (hm : Memory.wf m) (a : Nat) (b : Byte) : Memory.wf (Memory.write m a b) := by
  refine ⟨Memory.pairwise_write hm.1 a b, fun c hc => ?_⟩
  rcases Memory.mem_write hc with ⟨rfl, hb⟩ | hc
  · exact hb
  · exact hm.2 c hc

/-- A write below `size` keeps the listed addresses below it. -/
theorem Memory.within_write {size : Nat} {m : List Host.Cell} (hm : Memory.within size m) {a : Nat} (ha : a < size) (b : Byte) :
    Memory.within size (Memory.write m a b) := by
  intro c hc
  rcases Memory.mem_write hc with ⟨rfl, _⟩ | hc
  · exact ha
  · exact hm c hc

/-- Canonical memories that read the same at every address are the same data. -/
theorem Memory.ext_read {m m' : List Host.Cell} (hm : Memory.wf m) (hm' : Memory.wf m')
    (h : ∀ a, Memory.read m a = Memory.read m' a) : m = m' := by
  have headless : ∀ {k v} {rest : List Host.Cell}, Memory.wf ((k, v) :: rest) →
      Memory.read rest k = Memory.unlisted ∧ v ≠ Memory.unlisted ∧ Memory.wf rest := by
    intro k v rest hw
    have hp := List.pairwise_cons.mp hw.1
    exact ⟨Memory.read_below hp.1, hw.2 (k, v) (by simp), hp.2, fun c hc => hw.2 c (by simp [hc])⟩
  induction m generalizing m' with
  | nil =>
    cases m' with
    | nil => rfl
    | cons c rest =>
      obtain ⟨k, v⟩ := c
      have hk := h k
      simp only [Memory.read, if_true] at hk
      exact absurd hk.symm (headless hm').2.1
  | cons c rest ih =>
    obtain ⟨k, v⟩ := c
    obtain ⟨hk0, hv, hrest⟩ := headless hm
    cases m' with
    | nil =>
      have hk := h k
      simp only [Memory.read, if_true] at hk
      exact absurd hk hv
    | cons c' rest' =>
      obtain ⟨k', v'⟩ := c'
      obtain ⟨hk0', hv', hrest'⟩ := headless hm'
      have above := (List.pairwise_cons.mp hm.1).1
      have above' := (List.pairwise_cons.mp hm'.1).1
      have hkk : k = k' := by
        rcases Nat.lt_trichotomy k k' with hlt | heq | hgt
        · have hr := h k
          simp only [Memory.read, if_true, if_neg (Nat.ne_of_gt hlt)] at hr
          rw [Memory.read_below fun c hc => Nat.lt_trans hlt (above' c hc)] at hr
          exact absurd hr hv
        · exact heq
        · have hr := h k'
          simp only [Memory.read, if_true, if_neg (Nat.ne_of_gt hgt)] at hr
          rw [Memory.read_below fun c hc => Nat.lt_trans hgt (above c hc)] at hr
          exact absurd hr.symm hv'
      subst hkk
      have hvv : v = v' := by simpa [Memory.read] using h k
      subst hvv
      congr 1
      refine ih hrest hrest' fun a => ?_
      by_cases ha : k = a
      · subst ha
        rw [hk0, hk0']
      · simpa [Memory.read, ha] using h a

/-- Loading bytes keeps the canonical form. -/
theorem Memory.wf_load {m : List Host.Cell} (hm : Memory.wf m) (a : Nat) (bytes : List Byte) :
    Memory.wf (Memory.load m a bytes) := by
  induction bytes generalizing m a with
  | nil => exact hm
  | cons b rest ih => exact ih (Memory.wf_write hm a b) (a + 1)

/-- Loading bytes that end at or below `size` keeps the listed addresses below it. -/
theorem Memory.within_load {size : Nat} {m : List Host.Cell} (hm : Memory.within size m) (a : Nat) (bytes : List Byte)
    (h : a + bytes.length ≤ size) : Memory.within size (Memory.load m a bytes) := by
  induction bytes generalizing m a with
  | nil => exact hm
  | cons b rest ih =>
    rw [List.length_cons] at h
    exact ih (Memory.within_write hm (by omega) b) (a + 1) (by omega)

/-- Reading after loading bytes from address `a` upwards: a byte handed over there, else what was there before. -/
theorem Memory.read_load {m : List Host.Cell} (hm : Memory.wf m) (a : Nat) (bytes : List Byte) (k : Nat) :
    Memory.read (Memory.load m a bytes) k = if a ≤ k then bytes[k - a]?.getD (Memory.read m k) else Memory.read m k := by
  induction bytes generalizing m a with
  | nil => simp [Memory.load]
  | cons b rest ih =>
    rw [Memory.load, ih (Memory.wf_write hm a b), Memory.read_write hm]
    rcases Nat.lt_trichotomy a k with h | rfl | h
    · have hk : k - a = (k - (a + 1)) + 1 := by omega
      simp only [if_pos (Nat.succ_le_of_lt h), if_pos (Nat.le_of_lt h), if_neg (Nat.ne_of_gt h), hk, List.getElem?_cons_succ]
    · simp
    · simp only [if_neg (show ¬ a + 1 ≤ k by omega), if_neg (show ¬ a ≤ k by omega), if_neg (Nat.ne_of_lt h)]

/-- The memory of the state after reset is in canonical form. -/
theorem Memory.wf_reset : Memory.wf State.reset.mem := by decide

end Sys2Proof.Machine
end

