-- ==== Sys2Proof/Laws/Ops.lean ====
section
/-! SUPPORT. What each shared operation over addresses and Memory can do, said once. -/

namespace Sys2Proof.Machine

section Bytes
variable (v : Word) (lo hi : Byte)

theorem toNat_lowByte : (lowByte v).toNat = v.toNat % 256 := by simp [lowByte, BitVec.extractLsb'_toNat]

theorem toNat_highByte : (highByte v).toNat = v.toNat / 256 := by
  have := v.isLt
  simp only [highByte, BitVec.extractLsb'_toNat, Nat.shiftRight_eq_div_pow]
  omega

theorem toNat_joinBytes : (joinBytes lo hi).toNat = 256 * hi.toNat + lo.toNat := by
  have := lo.isLt
  simp only [joinBytes, BitVec.toNat_append]
  rw [Nat.shiftLeft_eq, Nat.mul_comm]
  exact (Nat.two_pow_add_eq_or_of_lt (i := 8) this _).symm

@[simp] theorem lowByte_joinBytes : lowByte (joinBytes lo hi) = lo := by
  apply BitVec.eq_of_toNat_eq
  rw [toNat_lowByte, toNat_joinBytes]
  have := lo.isLt
  omega

@[simp] theorem highByte_joinBytes : highByte (joinBytes lo hi) = hi := by
  apply BitVec.eq_of_toNat_eq
  rw [toNat_highByte, toNat_joinBytes]
  have := lo.isLt
  omega

@[simp] theorem joinBytes_split : joinBytes (lowByte v) (highByte v) = v := by
  apply BitVec.eq_of_toNat_eq
  rw [toNat_joinBytes, toNat_lowByte, toNat_highByte]
  omega

theorem toNat_zext16 : (zext16 lo).toNat = lo.toNat := by
  have := lo.isLt
  simp only [zext16, BitVec.toNat_setWidth]
  omega

end Bytes

section Addr16
variable {s : State} {a : Nat} {w : Word} {f : Fault}

/-- addr16 reads the parameters alone. -/
theorem addr16_congr {t : State} (h : t.params = s.params) (a : Nat) : addr16 t a = addr16 s a := by
  simp only [addr16, h]

theorem addr16_of_le (h : a ≤ 0xffff) : addr16 s a = .ok (BitVec.ofNat 16 a) := if_pos h

theorem addr16_wrap (h : s.params.addrOverflow = .wrap) : addr16 s a = .ok (BitVec.ofNat 16 a) := by
  simp [addr16, h]

theorem addr16_fault (h : s.params.addrOverflow = .fault) (ha : 0xffff < a) : addr16 s a = .error (.addrOverflow a) := by
  simp [addr16, h, Nat.not_le.mpr ha]

/-- What a success of addr16 says: the address mod 2^16. -/
theorem addr16_ok (h : addr16 s a = .ok w) : w = BitVec.ofNat 16 a := by
  unfold addr16 at h
  split at h
  · exact (Except.ok.inj h).symm
  · split at h
    · exact (Except.ok.inj h).symm
    · cases h

theorem addr16_ok_toNat (h : addr16 s a = .ok w) : w.toNat = a % 65536 := by
  rw [addr16_ok h, BitVec.toNat_ofNat]

/-- What a failure of addr16 says. -/
theorem addr16_error (h : addr16 s a = .error f) :
    f = .addrOverflow a ∧ 0xffff < a ∧ s.params.addrOverflow = .fault := by
  unfold addr16 at h
  split at h
  · cases h
  · split at h
    · cases h
    · exact ⟨(Except.error.inj h).symm, by omega, ‹_›⟩

/-- The second byte of a word stands at another address than the first. -/
theorem addr16_succ_ne {b w : Word} (h : addr16 s (b.toNat + 1) = .ok w) : w.toNat ≠ b.toNat := by
  have := addr16_ok_toNat h
  have := b.isLt
  omega

end Addr16

section Access
variable {s t : State} {a a' : Word} {b : Byte} {v : Word} {f : Fault}

theorem rd8_of_lt (h : a.toNat < s.params.memSize) : rd8 s a = .ok (Memory.read s.mem a.toNat) := if_pos h

theorem rd8_of_ge (h : s.params.memSize ≤ a.toNat) : rd8 s a = .error (.memOutOfRange a.toNat) :=
  if_neg (Nat.not_lt.mpr h)

theorem rd8_ok (h : rd8 s a = .ok b) : a.toNat < s.params.memSize ∧ b = Memory.read s.mem a.toNat := by
  unfold rd8 at h
  split at h
  · exact ⟨‹_›, (Except.ok.inj h).symm⟩
  · cases h

theorem rd8_error (h : rd8 s a = .error f) : f = .memOutOfRange a.toNat ∧ s.params.memSize ≤ a.toNat := by
  unfold rd8 at h
  split at h
  · cases h
  · exact ⟨(Except.error.inj h).symm, Nat.not_lt.mp ‹_›⟩

theorem wr8_of_lt (h : a.toNat < s.params.memSize) : wr8 s a b = .ok (s.setMem (Memory.write s.mem a.toNat b)) := if_pos h

theorem wr8_of_ge (h : s.params.memSize ≤ a.toNat) : wr8 s a b = .error (.memOutOfRange a.toNat) :=
  if_neg (Nat.not_lt.mpr h)

theorem wr8_ok (h : wr8 s a b = .ok t) :
    a.toNat < s.params.memSize ∧ t = s.setMem (Memory.write s.mem a.toNat b) := by
  unfold wr8 at h
  split at h
  · exact ⟨‹_›, (Except.ok.inj h).symm⟩
  · cases h

theorem wr8_error (h : wr8 s a b = .error f) : f = .memOutOfRange a.toNat ∧ s.params.memSize ≤ a.toNat := by
  unfold wr8 at h
  split at h
  · cases h
  · exact ⟨(Except.error.inj h).symm, Nat.not_lt.mp ‹_›⟩

/-- rd8 reads the Memory and the parameters alone. -/
theorem rd8_congr (hp : t.params = s.params) (hm : t.mem = s.mem) (a : Word) : rd8 t a = rd8 s a := by
  simp only [rd8, hp, hm]

/-- readWord reads the Memory and the parameters alone. -/
theorem readWord_congr (hp : t.params = s.params) (hm : t.mem = s.mem) (a : Word) : readWord t a = readWord s a := by
  simp only [readWord, rd8_congr hp hm, addr16_congr hp]

/-- When both bytes can be read, readWord is the little-endian word. -/
theorem readWord_of_readable (ha : a.toNat < s.params.memSize) (h' : addr16 s (a.toNat + 1) = .ok a')
    (ha' : a'.toNat < s.params.memSize) :
    readWord s a = .ok (joinBytes (Memory.read s.mem a.toNat) (Memory.read s.mem a'.toNat)) := by
  simp only [readWord, rd8_of_lt ha, h', rd8_of_lt ha']

/-- Everything a success of readWord says. -/
theorem readWord_ok (h : readWord s a = .ok v) :
    ∃ a', addr16 s (a.toNat + 1) = .ok a' ∧ a.toNat < s.params.memSize ∧ a'.toNat < s.params.memSize ∧
      v = joinBytes (Memory.read s.mem a.toNat) (Memory.read s.mem a'.toNat) := by
  unfold readWord at h
  split at h
  · cases h
  · rename_i lo hlo
    split at h
    · cases h
    · rename_i a' ha'
      split at h
      · cases h
      · rename_i hi hhi
        obtain ⟨h1, rfl⟩ := rd8_ok hlo
        obtain ⟨h2, rfl⟩ := rd8_ok hhi
        exact ⟨a', ha', h1, h2, (Except.ok.inj h).symm⟩

/-- Everything a failure of readWord says, in the order of R183. -/
theorem readWord_error (h : readWord s a = .error f) :
    (s.params.memSize ≤ a.toNat ∧ f = .memOutOfRange a.toNat) ∨
    (a.toNat < s.params.memSize ∧ addr16 s (a.toNat + 1) = .error f) ∨
    (a.toNat < s.params.memSize ∧
      ∃ a', addr16 s (a.toNat + 1) = .ok a' ∧ s.params.memSize ≤ a'.toNat ∧ f = .memOutOfRange a'.toNat) := by
  unfold readWord at h
  split at h
  · obtain ⟨hf, hge⟩ := rd8_error ‹_›
    cases h
    exact .inl ⟨hge, hf⟩
  · have hlo := (rd8_ok ‹_›).1
    split at h
    · cases h
      exact .inr (.inl ⟨hlo, ‹_›⟩)
    · rename_i a' ha'
      split at h
      · obtain ⟨hf, hge⟩ := rd8_error ‹_›
        cases h
        exact .inr (.inr ⟨hlo, a', ha', hge, hf⟩)
      · cases h

/-- When both bytes can be written, writeWord writes them, low byte first. -/
theorem writeWord_of_writable (ha : a.toNat < s.params.memSize) (h' : addr16 s (a.toNat + 1) = .ok a')
    (ha' : a'.toNat < s.params.memSize) :
    writeWord s a v =
      .ok (s.setMem (Memory.write (Memory.write s.mem a.toNat (lowByte v)) a'.toNat (highByte v))) := by
  simp only [writeWord, wr8_of_lt ha, addr16_congr (params_setMem s _), h']
  exact wr8_of_lt (s := s.setMem _) ha'

/-- Everything a success of writeWord says. -/
theorem writeWord_ok (h : writeWord s a v = .ok t) :
    ∃ a', addr16 s (a.toNat + 1) = .ok a' ∧ a.toNat < s.params.memSize ∧ a'.toNat < s.params.memSize ∧
      t = s.setMem (Memory.write (Memory.write s.mem a.toNat (lowByte v)) a'.toNat (highByte v)) := by
  unfold writeWord at h
  split at h
  · cases h
  · obtain ⟨h1, rfl⟩ := wr8_ok ‹_›
    split at h
    · cases h
    · rename_i a' ha'
      obtain ⟨h2, rfl⟩ := wr8_ok h
      exact ⟨a', by rwa [addr16_congr (params_setMem s _)] at ha', h1, h2, rfl⟩

/-- Everything a failure of writeWord says, in the order of R183. -/
theorem writeWord_error (h : writeWord s a v = .error f) :
    (s.params.memSize ≤ a.toNat ∧ f = .memOutOfRange a.toNat) ∨
    (a.toNat < s.params.memSize ∧ addr16 s (a.toNat + 1) = .error f) ∨
    (a.toNat < s.params.memSize ∧
      ∃ a', addr16 s (a.toNat + 1) = .ok a' ∧ s.params.memSize ≤ a'.toNat ∧ f = .memOutOfRange a'.toNat) := by
  unfold writeWord at h
  split at h
  · obtain ⟨hf, hge⟩ := wr8_error ‹_›
    cases h
    exact .inl ⟨hge, hf⟩
  · obtain ⟨hlo, rfl⟩ := wr8_ok ‹_›
    simp only [addr16_congr (params_setMem s _)] at h
    split at h
    · cases h
      exact .inr (.inl ⟨hlo, ‹_›⟩)
    · obtain ⟨hf, hge⟩ := wr8_error h
      exact .inr (.inr ⟨hlo, _, ‹_›, hge, hf⟩)

end Access

section Outcomes
variable {s t : State} {f : Fault} {r : Refusal} {x : Except Fault State} {y : Except Fault Word} {d : RegIdx}

@[simp] theorem outcomeOf_eq_next : outcomeOf x = .next t ↔ x = .ok t := by cases x <;> simp [outcomeOf]
@[simp] theorem outcomeOf_eq_fault : outcomeOf x = .fault f ↔ x = .error f := by cases x <;> simp [outcomeOf]
@[simp] theorem outcomeOf_ne_refused : outcomeOf x ≠ .refused r := by cases x <;> simp [outcomeOf]

theorem loadInto_eq_next : loadInto s d y = .next t ↔ ∃ v, y = .ok v ∧ t = s.setReg d v := by
  cases y <;> simp [loadInto, eq_comm]

@[simp] theorem loadInto_eq_fault : loadInto s d y = .fault f ↔ y = .error f := by cases y <;> simp [loadInto]
@[simp] theorem loadInto_ne_refused : loadInto s d y ≠ .refused r := by cases y <;> simp [loadInto]

end Outcomes

section LoadsAndStores
variable {s t : State} {a n : RegIdx} {imm4 : BitVec 4} {v : Word} {f : Fault}

/-- Everything a success of LDR's load says. -/
theorem loadedWord_ok (h : loadedWord s a imm4 = .ok v) :
    ∃ ea, effectiveAddress s a imm4 = .ok ea ∧ readWord s ea = .ok v := by
  unfold loadedWord at h
  split at h
  · cases h
  · exact ⟨_, ‹_›, h⟩

/-- Everything a success of STR's store says. -/
theorem storedWord_ok (h : storedWord s n a imm4 = .ok t) :
    ∃ ea, effectiveAddress s a imm4 = .ok ea ∧ writeWord s ea (s.reg n) = .ok t := by
  unfold storedWord at h
  split at h
  · cases h
  · exact ⟨_, ‹_›, h⟩

/-- Everything a failure of LDR's load says. -/
theorem loadedWord_error (h : loadedWord s a imm4 = .error f) :
    effectiveAddress s a imm4 = .error f ∨ ∃ ea, effectiveAddress s a imm4 = .ok ea ∧ readWord s ea = .error f := by
  unfold loadedWord at h
  split at h
  · cases h; exact .inl ‹_›
  · exact .inr ⟨_, ‹_›, h⟩

/-- Everything a failure of STR's store says. -/
theorem storedWord_error (h : storedWord s n a imm4 = .error f) :
    effectiveAddress s a imm4 = .error f ∨
      ∃ ea, effectiveAddress s a imm4 = .ok ea ∧ writeWord s ea (s.reg n) = .error f := by
  unfold storedWord at h
  split at h
  · cases h; exact .inl ‹_›
  · exact .inr ⟨_, ‹_›, h⟩

/-- Everything a success of LDB's load says. -/
theorem loadedByte_ok (h : loadedByte s n = .ok v) :
    (s.reg n).toNat < s.params.memSize ∧ v = zext16 (Memory.read s.mem (s.reg n).toNat) := by
  unfold loadedByte at h
  split at h
  · cases h
  · obtain ⟨hlt, rfl⟩ := rd8_ok ‹_›
    exact ⟨hlt, (Except.ok.inj h).symm⟩

/-- Everything a failure of LDB's load says. -/
theorem loadedByte_error (h : loadedByte s n = .error f) :
    f = .memOutOfRange (s.reg n).toNat ∧ s.params.memSize ≤ (s.reg n).toNat := by
  unfold loadedByte at h
  split at h
  · cases h; exact rd8_error ‹_›
  · cases h

end LoadsAndStores

end Sys2Proof.Machine
end

