-- ==== Sys2Proof/Laws/Decode.lean ====
section
/-! SUPPORT. What the fields of a word are as numbers, what the packing functions of the encoder give, and how the mask of an opcode-table
row decides the decoder's choice. -/

namespace Sys2Proof

section Fields
variable (w : Word) (lo n : Nat)

/-- A field as a number. -/
theorem toNat_field : (w.extractLsb' lo n).toNat = w.toNat / 2 ^ lo % 2 ^ n := by
  rw [BitVec.extractLsb'_toNat, Nat.shiftRight_eq_div_pow]

theorem val_regField : (regField w lo).val = w.toNat / 2 ^ lo % 16 := toNat_field w lo 4

theorem val_primaryOpcode : (primaryOpcode w).val = w.toNat / 4096 := by
  have := w.isLt
  have h := toNat_field w 12 4
  simp only [primaryOpcode, BitVec.val_toFin, h]
  omega

theorem val_slotField : (slotField w).val = w.toNat / 256 % 8 := toNat_field w 8 3

end Fields

section Masks
variable {w m v : Word} {lo n : Nat}

/-- A field whose bits all lie in the mask is the same field of the masked word. -/
theorem field_of_mask (hm : m.extractLsb' lo n = BitVec.allOnes n) (h : w &&& m = v) :
    w.extractLsb' lo n = v.extractLsb' lo n := by
  subst h
  ext k hk
  have hk' := congrArg (fun x : BitVec n => x.getLsbD k) hm
  simp only [BitVec.getLsbD_extractLsb', BitVec.getLsbD_allOnes, hk, decide_true, Bool.true_and] at hk'
  simp [hk']

theorem primaryOpcode_of_mask (hm : m.extractLsb' 12 4 = BitVec.allOnes 4) (h : w &&& m = v) :
    primaryOpcode w = primaryOpcode v := congrArg BitVec.toFin (field_of_mask hm h)

theorem slotField_of_mask (hm : m.extractLsb' 8 3 = BitVec.allOnes 3) (h : w &&& m = v) :
    slotField w = slotField v := congrArg BitVec.toFin (field_of_mask hm h)

end Masks

section Choice
variable {w : Word}

/-- Every op-14 word is the instruction of its slot (R69, R150). -/
theorem decode_of_opcode14 (h : primaryOpcode w = 14) :
    decode w = twoRegister (slotField w) (regField w 4) (regField w 0) := by simp only [decode, h]

/-- Every op-13 word is a branch (R68). -/
theorem decode_of_opcode13 (h : primaryOpcode w = 13) : decode w = decodeBranch w := by simp only [decode, h]

end Choice

section Packing

/-- Appending is adding the shifted high part. -/
theorem toNat_append_add {a b : Nat} (x : BitVec a) (y : BitVec b) : (x ++ y).toNat = x.toNat * 2 ^ b + y.toNat := by
  rw [BitVec.toNat_append, Nat.shiftLeft_eq, Nat.mul_comm]
  exact (Nat.two_pow_add_eq_or_of_lt y.isLt _).symm

@[simp] theorem toNat_regBits (r : RegIdx) : (regBits r).toNat = r.val := rfl

theorem toNat_packNibbles (op f g h : BitVec 4) :
    (packNibbles op f g h).toNat = 4096 * op.toNat + 256 * f.toNat + 16 * g.toNat + h.toNat := by
  simp only [packNibbles, toNat_append_add]
  omega

theorem toNat_packByte (op f : BitVec 4) (imm8 : BitVec 8) :
    (packByte op f imm8).toNat = 4096 * op.toNat + 256 * f.toNat + imm8.toNat := by
  simp only [packByte, toNat_append_add]
  omega

theorem toNat_packTwo (slot : BitVec 3) (d n : RegIdx) :
    (packTwo slot d n).toNat = 57344 + 256 * slot.toNat + 16 * d.val + n.val := by
  simp only [packTwo, toNat_append_add, toNat_regBits, BitVec.toNat_ofNat]
  omega

theorem toNat_encode_stp (imm12 : BitVec 12) : (encode (.stp imm12)).toNat = imm12.toNat := by
  simp only [encode, toNat_append_add, BitVec.toNat_ofNat]
  omega

theorem toNat_encode_branch0 (cond : BitVec 4) (a : RegIdx) (imm3 : BitVec 3) :
    (encode (.branch0 cond a imm3)).toNat = 53248 + 128 * cond.toNat + 8 * a.val + imm3.toNat := by
  simp only [encode, toNat_append_add, toNat_regBits, BitVec.toNat_ofNat]
  omega

theorem toNat_encode_branch1 (cond : BitVec 4) (imm7 : BitVec 7) :
    (encode (.branch1 cond imm7)).toNat = 55296 + 128 * cond.toNat + imm7.toNat := by
  simp only [encode, toNat_append_add, BitVec.toNat_ofNat]
  omega

end Packing

section Rows

/-- A word is its primary opcode followed by its twelve other bits. -/
theorem opcode_append (w : Word) : (w.extractLsb' 12 4 ++ w.extractLsb' 0 12 : Word) = w := by
  apply BitVec.eq_of_toNat_eq
  have := w.isLt
  simp only [toNat_append_add, toNat_field]
  omega

/-- The mask of a row that fixes the primary opcode alone keeps just that field. -/
theorem and_f000 (w : Word) : w &&& 0xf000#16 = (w.extractLsb' 12 4 ++ 0#12 : Word) := by
  have h : (0xf000#16 : Word) = 0xf#4 ++ 0#12 := rfl
  conv => lhs; rw [← opcode_append w, h, BitVec.and_append]
  congr 1
  · exact BitVec.and_allOnes
  · exact BitVec.and_zero

/-- Packing four nibbles and masking all but the first. -/
theorem packNibbles_and_f000 (op f g h : BitVec 4) : packNibbles op f g h &&& 0xf000#16 = packNibbles op 0 0 0 := by
  have hm : (0xf000#16 : Word) = 0xf#4 ++ 0#4 ++ 0#4 ++ 0#4 := rfl
  simp only [packNibbles]
  rw [hm, BitVec.and_append, BitVec.and_append, BitVec.and_append]
  congr 1
  · congr 1
    · congr 1
      · exact BitVec.and_allOnes
      · exact BitVec.and_zero
    · exact BitVec.and_zero
  · exact BitVec.and_zero

/-- Packing two nibbles and a byte and masking all but the first nibble. -/
theorem packByte_and_f000 (op f : BitVec 4) (imm8 : BitVec 8) : packByte op f imm8 &&& 0xf000#16 = packByte op 0 0 := by
  have hm : (0xf000#16 : Word) = 0xf#4 ++ 0#4 ++ 0#8 := rfl
  simp only [packByte]
  rw [hm, BitVec.and_append, BitVec.and_append]
  congr 1
  · congr 1
    · exact BitVec.and_allOnes
    · exact BitVec.and_zero
  · exact BitVec.and_zero

/-- An op-14 word masked to its opcode and slot. -/
theorem packTwo_and_f700 (slot : BitVec 3) (d n : RegIdx) : packTwo slot d n &&& 0xf700#16 = packTwo slot 0 0 := by
  have hm : (0xf700#16 : Word) = 0xf#4 ++ 0#1 ++ 0x7#3 ++ 0#4 ++ 0#4 := rfl
  simp only [packTwo]
  rw [hm, BitVec.and_append, BitVec.and_append, BitVec.and_append, BitVec.and_append]
  congr 1
  · congr 1
    · congr 1
      exact BitVec.and_allOnes
    · exact BitVec.and_zero
  · exact BitVec.and_zero

end Rows

end Sys2Proof
end

