-- ==== Sys2Proof/Laws/Exec.lean ====
section
/-! SUPPORT. Everything the execute phase can do, said once: if exec answers a next state, one of four effects happened; if it stops, which
instruction stopped and why. Later proofs take these apart instead of unfolding exec. -/

namespace Sys2Proof.Machine

/-- The memories a single instruction can leave: one or two bytes written, each below MEM_SIZE (R93). -/
inductive Stored (size : Nat) (m : List Host.Cell) : List Host.Cell → Prop
  | byte (a : Nat) (b : Byte) (ha : a < size) : Stored size m (Memory.write m a b)
  | word (a a' : Nat) (b b' : Byte) (ha : a < size) (ha' : a' < size) :
      Stored size m (Memory.write (Memory.write m a b) a' b')

/-- The effects of an instruction on a state (R23, R85, R93). -/
inductive ExecEffect (s : State) (i : Instr) : State → Prop
  | register (d : RegIdx) (v : Word) (hd : destination s.params.op14Map i = some d)
      (hm : storesToMemory s.params.op14Map i = false) : ExecEffect s i (s.setReg d v)
  | event (e : Event) (hd : destination s.params.op14Map i = none)
      (hm : storesToMemory s.params.op14Map i = false) : ExecEffect s i (s.emit e)
  | memory (m : List Host.Cell) (hd : destination s.params.op14Map i = none)
      (hm : storesToMemory s.params.op14Map i = true) (h : Stored s.params.memSize s.mem m) : ExecEffect s i (s.setMem m)
  | nothing (hd : destination s.params.op14Map i = none)
      (hm : storesToMemory s.params.op14Map i = false) : ExecEffect s i s

section Next
variable {s t : State} {i : Instr} {d n : RegIdx} {slot : Fin 8}

theorem stored_of_writeWord {a v : Word} (h : writeWord s a v = .ok t) :
    ∃ m, Stored s.params.memSize s.mem m ∧ t = s.setMem m := by
  obtain ⟨a', -, h1, h2, rfl⟩ := writeWord_ok h
  exact ⟨_, .word _ _ _ _ h1 h2, rfl⟩

theorem stub_effect {kind : StubKind} (hd : destination s.params.op14Map i = none)
    (hm : storesToMemory s.params.op14Map i = false) (h : stubOutcome kind s = .next t) : ExecEffect s i t := by
  unfold stubOutcome at h
  split at h
  · cases h
    exact .event _ hd hm
  · cases h

/-- An op-14 slot: the effect its mapped operation has. -/
theorem op14_effect (hd : destination s.params.op14Map i = slotDestination s.params.op14Map slot d)
    (hm : storesToMemory s.params.op14Map i = decide (s.params.op14Map[slot] = .stb))
    (h : op14Dispatch slot d n s = .next t) : ExecEffect s i t := by
  unfold slotDestination at hd
  unfold op14Dispatch at h
  split at h <;> rename_i hop <;> rw [hop] at hd hm
  · cases h
    exact .register d _ hd hm
  · cases h
    exact .register d _ hd hm
  · cases h
    exact .register d _ hd hm
  · cases h
    exact .register d _ hd hm
  · obtain ⟨v, -, rfl⟩ := loadInto_eq_next.mp h
    exact .register d _ hd hm
  · obtain ⟨hlt, rfl⟩ := wr8_ok (outcomeOf_eq_next.mp h)
    exact .memory _ hd hm (.byte _ _ hlt)
  · unfold op14UnlistedOp at h
    split at h
    · cases h
    · cases h
      exact .nothing hd hm

/-- The inversion of exec: every next state comes from one of the four effects. -/
theorem exec_effect (h : exec i s = .next t) : ExecEffect s i t := by
  cases i with
  | stp imm12 => cases h; exact .event _ rfl rfl
  | addRR d n m => cases h; exact .register d _ rfl rfl
  | addImm d imm8 => cases h; exact .register d _ rfl rfl
  | subRR d n m => cases h; exact .register d _ rfl rfl
  | subImm d imm8 => cases h; exact .register d _ rfl rfl
  | movImm d imm8 => cases h; exact .register d _ rfl rfl
  | cmpImm n imm8 => cases h; exact .event _ rfl rfl
  | ldr d a imm4 =>
    obtain ⟨v, -, rfl⟩ := loadInto_eq_next.mp h
    exact .register d _ rfl rfl
  | str n a imm4 =>
    obtain ⟨ea, -, hw⟩ := storedWord_ok (outcomeOf_eq_next.mp h)
    obtain ⟨m, hm, rfl⟩ := stored_of_writeWord hw
    exact .memory m rfl rfl hm
  | nan d n m => cases h; exact .register d _ rfl rfl
  | nor d n m => cases h; exact .register d _ rfl rfl
  | lsl d n imm4 => cases h; exact .register d _ rfl rfl
  | lsr d n imm4 => cases h; exact .register d _ rfl rfl
  | branch0 cond a imm3 => exact stub_effect rfl rfl h
  | branch1 cond imm7 => exact stub_effect rfl rfl h
  | and d n => exact op14_effect rfl rfl h
  | orr d n => exact op14_effect rfl rfl h
  | xor d n => exact op14_effect rfl rfl h
  | not d n => exact op14_effect rfl rfl h
  | ldb d n => exact op14_effect rfl rfl h
  | stb d n => exact op14_effect rfl rfl h
  | op14Slot6 d n => exact op14_effect rfl rfl h
  | op14Slot7 d n => exact op14_effect rfl rfl h
  | int cond index => exact stub_effect rfl rfl h

end Next

section Slots
variable {s : State} {d n : RegIdx} {slot : Fin 8}

theorem op14Dispatch_and (h : s.params.op14Map[slot] = .and) :
    op14Dispatch slot d n s = .next (s.setReg d (s.reg d &&& s.reg n)) := by simp only [op14Dispatch, h, op14And]

theorem op14Dispatch_orr (h : s.params.op14Map[slot] = .orr) :
    op14Dispatch slot d n s = .next (s.setReg d (s.reg d ||| s.reg n)) := by simp only [op14Dispatch, h, op14Orr]

theorem op14Dispatch_xor (h : s.params.op14Map[slot] = .xor) :
    op14Dispatch slot d n s = .next (s.setReg d (s.reg d ^^^ s.reg n)) := by simp only [op14Dispatch, h, op14Xor]

theorem op14Dispatch_not (h : s.params.op14Map[slot] = .not) :
    op14Dispatch slot d n s = .next (s.setReg d (~~~(s.reg n))) := by simp only [op14Dispatch, h, op14Not]

theorem op14Dispatch_ldb (h : s.params.op14Map[slot] = .ldb) :
    op14Dispatch slot d n s = loadInto s d (loadedByte s n) := by simp only [op14Dispatch, h, op14Ldb]

theorem op14Dispatch_stb (h : s.params.op14Map[slot] = .stb) :
    op14Dispatch slot d n s = outcomeOf (wr8 s (s.reg n) (lowByte (s.reg d))) := by simp only [op14Dispatch, h, op14Stb]

theorem op14Dispatch_unlisted (h : s.params.op14Map[slot] = .unlisted) :
    op14Dispatch slot d n s = op14UnlistedOp s := by simp only [op14Dispatch, h]

theorem loadedByte_of_lt (h : (s.reg n).toNat < s.params.memSize) :
    loadedByte s n = .ok (zext16 (Memory.read s.mem (s.reg n).toNat)) := by simp only [loadedByte, rd8_of_lt h]

theorem loadedByte_of_ge (h : s.params.memSize ≤ (s.reg n).toNat) :
    loadedByte s n = .error (.memOutOfRange (s.reg n).toNat) := by simp only [loadedByte, rd8_of_ge h]

end Slots

section WordAccesses
variable {s t : State} {n a : RegIdx} {imm4 : BitVec 4} {w v : Word} {f : Fault}

/-- The effective address of LDR and STR in full (R45, R71). -/
theorem effectiveAddress_eq : effectiveAddress s a imm4 = addr16 s ((s.reg a).toNat + imm4.toNat * 2) := rfl

/-- The effective address reads the base register and the parameters alone. -/
theorem effectiveAddress_congr (hp : t.params = s.params) (hr : t.reg a = s.reg a) :
    effectiveAddress t a imm4 = effectiveAddress s a imm4 := by
  simp only [effectiveAddress, hr, addr16_congr hp]

/-- When readWord stops, and with what. -/
theorem readWord_error_iff : readWord s w = .error f ↔ WordStop s w f := by
  refine ⟨readWord_error, ?_⟩
  rintro (⟨h, rfl⟩ | ⟨h1, h2⟩ | ⟨h1, a', h2, h3, rfl⟩)
  · simp only [readWord, rd8_of_ge h]
  · simp only [readWord, rd8_of_lt h1, h2]
  · simp only [readWord, rd8_of_lt h1, h2, rd8_of_ge h3]

/-- When writeWord stops, and with what. -/
theorem writeWord_error_iff : writeWord s w v = .error f ↔ WordStop s w f := by
  refine ⟨writeWord_error, ?_⟩
  rintro (⟨h, rfl⟩ | ⟨h1, h2⟩ | ⟨h1, a', h2, h3, rfl⟩)
  · simp only [writeWord, wr8_of_ge h]
  · simp only [writeWord, wr8_of_lt h1, addr16_congr (params_setMem s _), h2]
  · simp only [writeWord, wr8_of_lt h1, addr16_congr (params_setMem s _), h2]
    exact wr8_of_ge (s := s.setMem _) h3

/-- LDR's load when the word can be accessed. -/
theorem loadedWord_of_wordAt {ea ea' : Word} (he : effectiveAddress s a imm4 = .ok ea) (h : WordAt s ea ea') :
    loadedWord s a imm4 = .ok (joinBytes (Memory.read s.mem ea.toNat) (Memory.read s.mem ea'.toNat)) := by
  simp only [loadedWord, he]
  exact readWord_of_readable h.1 h.2.1 h.2.2

/-- STR's store when the word can be accessed. -/
theorem storedWord_of_wordAt {ea ea' : Word} (he : effectiveAddress s a imm4 = .ok ea) (h : WordAt s ea ea') :
    storedWord s n a imm4 =
      .ok (s.setMem (Memory.write (Memory.write s.mem ea.toNat (lowByte (s.reg n))) ea'.toNat (highByte (s.reg n)))) := by
  simp only [storedWord, he]
  exact writeWord_of_writable h.1 h.2.1 h.2.2

/-- Everything a next state of STR says. -/
theorem exec_str_next (h : exec (.str n a imm4) s = .next t) :
    ∃ ea ea', effectiveAddress s a imm4 = .ok ea ∧ WordAt s ea ea' ∧
      t = s.setMem (Memory.write (Memory.write s.mem ea.toNat (lowByte (s.reg n))) ea'.toNat (highByte (s.reg n))) := by
  obtain ⟨ea, he, hw⟩ := storedWord_ok (outcomeOf_eq_next.mp h)
  obtain ⟨ea', h1, h2, h3, rfl⟩ := writeWord_ok hw
  exact ⟨ea, ea', he, ⟨h2, h1, h3⟩, rfl⟩

end WordAccesses

section Dispatch
variable (s : State) (d n : RegIdx) (slot : Fin 8)

/-- Running the instruction of a slot is dispatching on the slot (R150). -/
theorem exec_twoRegister : exec (twoRegister slot d n) s = op14Dispatch slot d n s := by
  match slot with
  | 0 => rfl
  | 1 => rfl
  | 2 => rfl
  | 3 => rfl
  | 4 => rfl
  | 5 => rfl
  | 6 => rfl
  | 7 => rfl

/-- An instruction with a slot is that slot's. -/
theorem eq_twoRegister_of_slot {i : Instr} {slot : Fin 8} (h : Instr.slot i = some slot) :
    ∃ d n, i = twoRegister slot d n := by
  cases i <;> simp only [Instr.slot, Option.some.injEq, reduceCtorEq] at h <;> subst h <;> exact ⟨_, _, rfl⟩

end Dispatch

end Sys2Proof.Machine
end

