-- ==== Sys2Proof/Laws/PerInstr.lean ====
section
/-! SUPPORT. Statements made per instruction. RowBits: the word of an instruction has the fixed bits of its row of the opcode table. -/

namespace Sys2Proof.Laws.RowBits

/-- The row of the opcode table admits the instruction's word. -/
def Statement (i : Instr) : Prop := i.row.admits (encode i) = true

/-- The test of a row, as an equation. -/
theorem of_mask {i : Instr} (h : encode i &&& i.row.mask = i.row.value) : Statement i := decide_eq_true h

theorem stp (imm12 : BitVec 12) : Statement (.stp imm12) :=
  of_mask (by
    show (0x0#4 ++ imm12 : Word) &&& (0xf#4 ++ 0#12 : Word) = 0#4 ++ 0#12
    rw [BitVec.and_append]
    congr 1
    exact BitVec.and_zero)

theorem addRR (d n m : RegIdx) : Statement (.addRR d n m) :=
  of_mask (packNibbles_and_f000 _ _ _ _)

theorem subRR (d n m : RegIdx) : Statement (.subRR d n m) :=
  of_mask (packNibbles_and_f000 _ _ _ _)

theorem nan (d n m : RegIdx) : Statement (.nan d n m) :=
  of_mask (packNibbles_and_f000 _ _ _ _)

theorem nor (d n m : RegIdx) : Statement (.nor d n m) :=
  of_mask (packNibbles_and_f000 _ _ _ _)

theorem ldr (d a : RegIdx) (imm4 : BitVec 4) : Statement (.ldr d a imm4) :=
  of_mask (packNibbles_and_f000 _ _ _ _)

theorem str (n a : RegIdx) (imm4 : BitVec 4) : Statement (.str n a imm4) :=
  of_mask (packNibbles_and_f000 _ _ _ _)

theorem lsl (d n : RegIdx) (imm4 : BitVec 4) : Statement (.lsl d n imm4) :=
  of_mask (packNibbles_and_f000 _ _ _ _)

theorem lsr (d n : RegIdx) (imm4 : BitVec 4) : Statement (.lsr d n imm4) :=
  of_mask (packNibbles_and_f000 _ _ _ _)

theorem addImm (d : RegIdx) (imm8 : BitVec 8) : Statement (.addImm d imm8) :=
  of_mask (packByte_and_f000 _ _ _)

theorem subImm (d : RegIdx) (imm8 : BitVec 8) : Statement (.subImm d imm8) :=
  of_mask (packByte_and_f000 _ _ _)

theorem movImm (d : RegIdx) (imm8 : BitVec 8) : Statement (.movImm d imm8) :=
  of_mask (packByte_and_f000 _ _ _)

theorem cmpImm (n : RegIdx) (imm8 : BitVec 8) : Statement (.cmpImm n imm8) :=
  of_mask (packByte_and_f000 _ _ _)

theorem branch0 (cond : BitVec 4) (a : RegIdx) (imm3 : BitVec 3) : Statement (.branch0 cond a imm3) :=
  of_mask (by
    show (0xd#4 ++ 0#1 ++ cond ++ regBits a ++ imm3 : Word) &&& (0xf#4 ++ 1#1 ++ 0#4 ++ 0#4 ++ 0#3 : Word) =
      0xd#4 ++ 0#1 ++ 0#4 ++ 0#4 ++ 0#3
    rw [BitVec.and_append, BitVec.and_append, BitVec.and_append, BitVec.and_zero, BitVec.and_zero, BitVec.and_zero]
    rfl)

theorem branch1 (cond : BitVec 4) (imm7 : BitVec 7) : Statement (.branch1 cond imm7) :=
  of_mask (by
    show (0xd#4 ++ 1#1 ++ cond ++ imm7 : Word) &&& (0xf#4 ++ 1#1 ++ 0#4 ++ 0#7 : Word) = 0xd#4 ++ 1#1 ++ 0#4 ++ 0#7
    rw [BitVec.and_append, BitVec.and_append, BitVec.and_zero, BitVec.and_zero]
    rfl)

theorem and (d n : RegIdx) : Statement (.and d n) :=
  of_mask (packTwo_and_f700 _ _ _)

theorem orr (d n : RegIdx) : Statement (.orr d n) :=
  of_mask (packTwo_and_f700 _ _ _)

theorem xor (d n : RegIdx) : Statement (.xor d n) :=
  of_mask (packTwo_and_f700 _ _ _)

theorem not (d n : RegIdx) : Statement (.not d n) :=
  of_mask (packTwo_and_f700 _ _ _)

theorem ldb (d n : RegIdx) : Statement (.ldb d n) :=
  of_mask (packTwo_and_f700 _ _ _)

theorem stb (d n : RegIdx) : Statement (.stb d n) :=
  of_mask (packTwo_and_f700 _ _ _)

theorem op14Slot6 (d n : RegIdx) : Statement (.op14Slot6 d n) :=
  of_mask (packTwo_and_f700 _ _ _)

theorem op14Slot7 (d n : RegIdx) : Statement (.op14Slot7 d n) :=
  of_mask (packTwo_and_f700 _ _ _)

theorem int (cond : BitVec 4) (index : BitVec 8) : Statement (.int cond index) :=
  of_mask (packByte_and_f000 _ _ _)

end Sys2Proof.Laws.RowBits
end

