-- ==== Sys2Proof/Laws/Phases.lean ====
section
/-! SUPPORT. What the fetch phase, one step and the host's requests can do. -/

namespace Sys2Proof.Machine

section Fetch
variable {s t : State} {f : Fault}

/-- The state after a fetch of the word `w` (R80). -/
def fetched (s : State) (w : Word) : State := ((s.setMar s.pc).setCir w).setReg pcIdx (s.pc + 2)

@[simp] theorem mar_fetched (w : Word) : (fetched s w).mar = s.pc := rfl
@[simp] theorem cir_fetched (w : Word) : (fetched s w).cir = w := rfl
@[simp] theorem mem_fetched (w : Word) : (fetched s w).mem = s.mem := rfl
@[simp] theorem trace_fetched (w : Word) : (fetched s w).trace = s.trace := rfl
@[simp] theorem status_fetched (w : Word) : (fetched s w).status = s.status := rfl
@[simp] theorem params_fetched (w : Word) : (fetched s w).params = s.params := rfl
@[simp] theorem pc_fetched (w : Word) : (fetched s w).pc = s.pc + 2 := reg_setReg_same _ _ _

theorem reg_fetched (w : Word) (r : RegIdx) : (fetched s w).reg r = if r = pcIdx then s.pc + 2 else s.reg r :=
  reg_setReg _ _ _ _

/-- A fetch whose word can be read. -/
theorem fetch_of_readWord {w : Word} (h : readWord s s.pc = .ok w) : fetch s = .ok (fetched s w) := by
  have h' : readWord (s.setMar s.pc) (s.setMar s.pc).mar = .ok w := by
    rw [readWord_congr (params_setMar s _) (mem_setMar s _)]
    exact h
  simp only [fetch, h']
  rfl

/-- A fetch whose word cannot be read. -/
theorem fetch_of_readWord_error (h : readWord s s.pc = .error f) : fetch s = .error f := by
  have h' : readWord (s.setMar s.pc) (s.setMar s.pc).mar = .error f := by
    rw [readWord_congr (params_setMar s _) (mem_setMar s _)]
    exact h
  simp only [fetch, h']

/-- Everything a success of fetch says. -/
theorem fetch_ok (h : fetch s = .ok t) : ∃ w, readWord s s.pc = .ok w ∧ t = fetched s w := by
  cases hr : readWord s s.pc with
  | ok w => exact ⟨w, rfl, (Except.ok.inj ((fetch_of_readWord hr).symm.trans h)).symm⟩
  | error f => rw [fetch_of_readWord_error hr] at h; cases h

/-- Everything a failure of fetch says. -/
theorem fetch_error (h : fetch s = .error f) : readWord s s.pc = .error f := by
  cases hr : readWord s s.pc with
  | ok w => rw [fetch_of_readWord hr] at h; cases h
  | error f' => rw [fetch_of_readWord_error hr] at h; cases h; rfl

end Fetch

section Step
variable {s t : State} {f : Fault} {r : Refusal}

/-- A running state's step is its cycle. -/
theorem step_of_running (h : s.status = .running) : step s = cycle s := by simp only [step, cycleIfRunning, h]

/-- Everything a step to a next state says. -/
theorem step_next (h : step s = .next t) :
    s.status = .running ∧ ∃ w, readWord s s.pc = .ok w ∧ exec (decode w) (fetched s w) = .next t := by
  unfold step cycleIfRunning at h
  split at h
  · refine ⟨‹_›, ?_⟩
    unfold cycle at h
    split at h
    · cases h
    · rename_i u hu
      obtain ⟨w, hw, rfl⟩ := fetch_ok hu
      exact ⟨w, hw, h⟩
  · cases h
  · cases h

/-- The step of a running state whose word can be read. -/
theorem step_of_readWord {w : Word} (hs : s.status = .running) (h : readWord s s.pc = .ok w) :
    step s = exec (decode w) (fetched s w) := by
  rw [step_of_running hs]
  simp only [cycle, fetch_of_readWord h, execute, cir_fetched]

end Step

section HostWrites
variable {s : State} {a : Nat} (b : Byte)

/-- A host write below MEM_SIZE writes its byte (R202). -/
theorem hostWrite_of_lt (h : a < s.params.memSize) : hostWrite s a b = s.setMem (Memory.write s.mem a b) := if_pos h

/-- A host write at or above MEM_SIZE finds no byte to write (log 11). -/
theorem hostWrite_of_ge (h : s.params.memSize ≤ a) : hostWrite s a b = s := if_neg (Nat.not_lt.mpr h)

end HostWrites

end Sys2Proof.Machine
end

