-- ==== Sys2Proof/Tests/Slice0.lean ====
section
/-! SUPPORT. The model's own tests. Expected values come from spec/: the decode checks and vectors of 95_test_vectors.md (named W, V in the
comments), the encodings of 30_encoding.md, and hand calculation from the rules. The test_witness_ theorems show states and operands that meet
the hypotheses of the statements. -/

namespace Sys2Proof.Tests

open Sys2Proof Sys2Proof.Machine

/-! ## Helpers: small states and readings of an outcome -/

/-- Registers from a list of index and value over zeros. -/
def regsOf (l : List (RegIdx × Word)) : Vector Word 16 := l.foldl (fun v p => v.set p.1 p.2) (Vector.replicate 16 0)

/-- A state of the conventions of 95_test_vectors.md: one execute phase, x[15] = 0x0102. -/
def vec (cir : Word) (regs : List (RegIdx × Word)) (mem : List Host.Cell) : State :=
  { State.reset with regs := regsOf ((15, 0x0102) :: regs), cir := cir, mem := mem }

/-- The same with 256 bytes of Memory. -/
def small (s : State) : State := { s with params := { s.params with memSize := 0x100 } }

/-- The same with ADDR_OVERFLOW = fault. -/
def strict (s : State) : State := { s with params := { s.params with addrOverflow := .fault } }

/-- The same with STUB_POLICY = refuse. -/
def noStubs (s : State) : State := { s with params := { s.params with stubPolicy := .refuse } }

/-- The same with OP14_UNLISTED = nop. -/
def lax (s : State) : State := { s with params := { s.params with op14Unlisted := .nop } }

/-- The same with another OP14_MAP: slots 0 to 7 give UNLISTED, STB, LDB, NOT, XOR, ORR, AND, LDB. -/
def remapped (s : State) : State :=
  { s with params := { s.params with op14Map := #v[.unlisted, .stb, .ldb, .not, .xor, .orr, .and, .ldb] } }

/-- The same with HALT_ON_STOP = false. -/
def noHalt (s : State) : State := { s with params := { s.params with haltOnStop := false } }

/-- The state after reset with 2 bytes of Memory. -/
def tiny : State := { State.reset with params := { defaultParams with memSize := 2 } }

def nextOf : Host.Outcome State Fault Refusal → Option State
  | .next t => some t
  | _ => none

def faultOf : Host.Outcome State Fault Refusal → Option Fault
  | .fault f => some f
  | _ => none

def refusalOf : Host.Outcome State Fault Refusal → Option Refusal
  | .refused r => some r
  | _ => none

/-- A register after the execute phase. -/
def xAfter (s : State) (r : RegIdx) : Option Word := (nextOf (execute s)).map (State.reg · r)

/-- A byte of Memory after the execute phase. -/
def byteAfter (s : State) (a : Nat) : Option Byte := (nextOf (execute s)).map (fun t => Memory.read t.mem a)

/-- The trace after the execute phase. -/
def traceAfter (s : State) : Option (List Event) := (nextOf (execute s)).map (·.trace)

/-! ## Well-formedness: each check refuses an ill-formed term -/

theorem test_memSize_zero_refused : Params.wellFormed { defaultParams with memSize := 0 } = false := by decide
theorem test_memSize_above_space_refused : Params.wellFormed { defaultParams with memSize := 65537 } = false := by decide
theorem test_default_params_wellFormed : defaultParams.wellFormed = true := by decide
theorem test_asm_code_too_large : assemble (.stp 4096) = none := by decide
theorem test_asm_imm8_too_large : assemble (.movImm 1 256) = none := by decide
theorem test_asm_odd_offset : assemble (.ldr 1 2 3) = none := by decide
theorem test_asm_offset_too_large : assemble (.str 1 2 32) = none := by decide
theorem test_asm_shift_zero : assemble (.lsl 1 2 0) = none := by decide
theorem test_asm_shift_too_large : assemble (.lsr 1 2 17) = none := by decide
theorem test_asm_cond_too_large : assemble (.branch1 16 0) = none := by decide
theorem test_asm_imm3_too_large : assemble (.branch0 0 0 8) = none := by decide
theorem test_asm_imm7_too_large : assemble (.branch1 0 128) = none := by decide
theorem test_asm_index_too_large : assemble (.int 0 256) = none := by decide
theorem test_decode_truncated : decodeBytes [0x30] = .error .truncated := rfl
theorem test_mem_unsorted_not_wf : ¬ Memory.wf [(1, 5), (0, 5)] := by decide
theorem test_mem_listing_unlisted_not_wf : ¬ Memory.wf [(0, 0)] := by decide

/-! ## Decoding: one word per constructor, written bit by bit from the pattern of its rule; the first part is the row's mask -/

theorem test_decode_stp : 0b0000101010111100 &&& 0xf000 = (0x0000 : Word) ∧ decode 0b0000101010111100 = .stp 0xabc := by decide
theorem test_decode_addRR : 0b0001000100100011 &&& 0xf000 = (0x1000 : Word) ∧ decode 0b0001000100100011 = .addRR 1 2 3 := by decide
theorem test_decode_addImm : 0b0010111100000100 &&& 0xf000 = (0x2000 : Word) ∧ decode 0b0010111100000100 = .addImm 15 4 := by decide
theorem test_decode_subRR : 0b0011001100100001 &&& 0xf000 = (0x3000 : Word) ∧ decode 0b0011001100100001 = .subRR 3 2 1 := by decide
theorem test_decode_subImm : 0b0100010000000110 &&& 0xf000 = (0x4000 : Word) ∧ decode 0b0100010000000110 = .subImm 4 6 := by decide
theorem test_decode_movImm : 0b0101001000110000 &&& 0xf000 = (0x5000 : Word) ∧ decode 0b0101001000110000 = .movImm 2 0x30 := by decide
theorem test_decode_cmpImm : 0b0110001101000010 &&& 0xf000 = (0x6000 : Word) ∧ decode 0b0110001101000010 = .cmpImm 3 0x42 := by decide
theorem test_decode_ldr : 0b0111101001011111 &&& 0xf000 = (0x7000 : Word) ∧ decode 0b0111101001011111 = .ldr 10 5 15 := by decide
theorem test_decode_str : 0b1000001100010001 &&& 0xf000 = (0x8000 : Word) ∧ decode 0b1000001100010001 = .str 3 1 1 := by decide
theorem test_decode_nan : 0b1001000100100011 &&& 0xf000 = (0x9000 : Word) ∧ decode 0b1001000100100011 = .nan 1 2 3 := by decide
theorem test_decode_nor : 0b1010111111100000 &&& 0xf000 = (0xa000 : Word) ∧ decode 0b1010111111100000 = .nor 15 14 0 := by decide
theorem test_decode_lsl : 0b1011001000011111 &&& 0xf000 = (0xb000 : Word) ∧ decode 0b1011001000011111 = .lsl 2 1 15 := by decide
theorem test_decode_lsr : 0b1100001000010000 &&& 0xf000 = (0xc000 : Word) ∧ decode 0b1100001000010000 = .lsr 2 1 0 := by decide
theorem test_decode_branch0 : 0b1101000100100011 &&& 0xf800 = (0xd000 : Word) ∧ decode 0b1101000100100011 = .branch0 2 4 3 := by decide
theorem test_decode_branch1 : 0b1101111111111111 &&& 0xf800 = (0xd800 : Word) ∧ decode 0b1101111111111111 = .branch1 0xf 0x7f := by decide
theorem test_decode_and : 0b1110100000010010 &&& 0xf700 = (0xe000 : Word) ∧ decode 0b1110100000010010 = .and 1 2 := by decide
theorem test_decode_orr : 0b1110000100110100 &&& 0xf700 = (0xe100 : Word) ∧ decode 0b1110000100110100 = .orr 3 4 := by decide
theorem test_decode_xor : 0b1110001000010010 &&& 0xf700 = (0xe200 : Word) ∧ decode 0b1110001000010010 = .xor 1 2 := by decide
theorem test_decode_not : 0b1110101100010001 &&& 0xf700 = (0xe300 : Word) ∧ decode 0b1110101100010001 = .not 1 1 := by decide
theorem test_decode_ldb : 0b1110010001010110 &&& 0xf700 = (0xe400 : Word) ∧ decode 0b1110010001010110 = .ldb 5 6 := by decide
theorem test_decode_stb : 0b1110110101000110 &&& 0xf700 = (0xe500 : Word) ∧ decode 0b1110110101000110 = .stb 4 6 := by decide
theorem test_decode_op14Slot6 : 0b1110011000010010 &&& 0xf700 = (0xe600 : Word) ∧ decode 0b1110011000010010 = .op14Slot6 1 2 := by decide
theorem test_decode_op14Slot7 : 0b1110111100010010 &&& 0xf700 = (0xe700 : Word) ∧ decode 0b1110111100010010 = .op14Slot7 1 2 := by decide
theorem test_decode_int : 0b1111000100000101 &&& 0xf000 = (0xf000 : Word) ∧ decode 0b1111000100000101 = .int 1 5 := by decide

/-- 0xD7FF and 0xD800 stand on the two sides of the branch variants' border (R68). -/
theorem test_decode_branch_border : decode 0xd7ff = .branch0 0xf 0xf 7 ∧ decode 0xd800 = .branch1 0 0 := by decide

/-- A table row's fixed bits alone, read through the host's name. -/
theorem test_decodeTableWord : decodeTableWord 16 0xe812 = some (.and 1 2) ∧ decodeTableWord 16 0x0000 = some (.stp 0) := by decide

theorem test_disassemble_text : (disassemble 0x7211).text = "LDR R2, [R1, #2]" ∧ (disassemble 0xef12).text = ".word 0xef12" := by decide

theorem test_assemble : assemble (.lsl 2 1 7) = some 0xb216 ∧ assemble (.ldr 4 1 30) = some 0x741f := by decide

/-! ## Vectors of 95_test_vectors.md, one or two per instruction -/

theorem test_VD2_stp : traceAfter (vec 0x0abc [] []) = some [.stop 0xabc] := by decide
theorem test_VD5_cmp_pc : traceAfter (vec 0x6f00 [] []) = some [.compare 15 0x0102 0x00] := by decide
theorem test_VD6_cmp_keeps_fr : xAfter (vec 0x6eff [(14, 0x1234)] []) 14 = some 0x1234 := by decide
theorem test_VA2_add_wraps : xAfter (vec 0x1112 [(1, 0xffff), (2, 0x0001)] []) 1 = some 0x0000 := by decide
theorem test_VA3_add_doubles : xAfter (vec 0x1111 [(1, 0xffff)] []) 1 = some 0xfffe := by decide
theorem test_VA8_addImm_zero_extends : xAfter (vec 0x21ff [(1, 0xff80)] []) 1 = some 0x007f := by decide
theorem test_VA10_addImm_jumps : xAfter (vec 0x2f04 [] []) 15 = some 0x0106 := by decide
theorem test_VA13_sub_order : xAfter (vec 0x3321 [(2, 0x8000), (1, 0x0100)] []) 3 = some 0x7f00 := by decide
theorem test_VA14_sub_wraps : xAfter (vec 0x3321 [(2, 0x0100), (1, 0x8000)] []) 3 = some 0x8100 := by decide
theorem test_VA16_subImm : xAfter (vec 0x41ff [(1, 0x0010)] []) 1 = some 0xff11 := by decide
theorem test_VA18_subImm_pc : xAfter (vec 0x4f02 [] []) 15 = some 0x0100 := by decide
theorem test_VA20_mov_zero_extends : xAfter (vec 0x51ff [(1, 0xabcd)] []) 1 = some 0x00ff := by decide
theorem test_VL2_ldr_old_base : xAfter (vec 0x7111 [(1, 0x0040)] [(0x42, 0x34), (0x43, 0x12)]) 1 = some 0x1234 := by decide
theorem test_VL7_ldr_base_wraps : xAfter (vec 0x721f [(1, 0xfff0)] [(0x0e, 0x11), (0x0f, 0x22)]) 2 = some 0x2211 := by decide
theorem test_VS4_str_wraps : byteAfter (vec 0x8310 [(3, 0xbeef), (1, 0xffff)] []) 0x0000 = some 0xbe := by decide
theorem test_VS6_str_pc : byteAfter (vec 0x8f1f [(1, 0x00e2)] []) 0x0100 = some 0x02 := by decide
theorem test_VB1_nan : xAfter (vec 0x9123 [(2, 0xf0f0), (3, 0xff00)] []) 1 = some 0x0fff := by decide
theorem test_VB4_nor : xAfter (vec 0xa123 [(2, 0xf0f0), (3, 0xff00)] []) 1 = some 0x000f := by decide
theorem test_VB8_lsl : xAfter (vec 0xb217 [(1, 0x00ff)] []) 2 = some 0xff00 := by decide
theorem test_VB9_lsl_16 : xAfter (vec 0xb21f [(1, 0xffff), (2, 0x1111)] []) 2 = some 0x0000 := by decide
theorem test_VB11_lsr_logical : xAfter (vec 0xc210 [(1, 0x8000)] []) 2 = some 0x4000 := by decide
theorem test_VB13_lsr_16 : xAfter (vec 0xc21f [(1, 0xffff), (2, 0x1111)] []) 2 = some 0x0000 := by decide
theorem test_VR1_branch0 : traceAfter (vec 0xd123 [(4, 0x5555)] []) = some [.unimplemented .branch0 0xd123] := by decide
theorem test_VR6_branch0_refused : refusalOf (execute (noStubs (vec 0xd123 [] []))) = some (.stub .branch0 0xd123) := by decide
theorem test_VR5_branch1 : traceAfter (vec 0xdfff [] []) = some [.unimplemented .branch1 0xdfff] := by decide
theorem test_VR7_branch1_refused : refusalOf (execute (noStubs (vec 0xdfff [] []))) = some (.stub .branch1 0xdfff) := by decide
theorem test_VT2_and_alias : xAfter (vec 0xe812 [(1, 0x1234), (2, 0x0ff0)] []) 1 = some 0x0230 := by decide
theorem test_VT4_orr : xAfter (vec 0xe134 [(3, 0x1200), (4, 0x0034)] []) 3 = some 0x1234 := by decide
theorem test_VT5_xor : xAfter (vec 0xe212 [(1, 0xffff), (2, 0x00ff)] []) 1 = some 0xff00 := by decide
theorem test_VT7_not : xAfter (vec 0xe312 [(1, 0x5555), (2, 0x00ff)] []) 1 = some 0xff00 := by decide
theorem test_VT10_ldb_zero_extends : xAfter (vec 0xe456 [(5, 0xabcd), (6, 0x0043)] [(0x43, 0xff)]) 5 = some 0x00ff := by decide
theorem test_VT13_ldb_out_of_range : faultOf (execute (small (vec 0xe456 [(6, 0x0100)] []))) = some (.memOutOfRange 0x0100) := by decide
theorem test_VT14_stb : byteAfter (vec 0xe546 [(4, 0x1234), (6, 0x0043)] [(0x44, 0x77)]) 0x43 = some 0x34 := by decide
theorem test_VT14_stb_next_byte : byteAfter (vec 0xe546 [(4, 0x1234), (6, 0x0043)] [(0x44, 0x77)]) 0x44 = some 0x77 := by decide
theorem test_VT17_slot6_refused : refusalOf (execute (vec 0xe612 [] [])) = some (.op14Unlisted 0xe612) := by decide
theorem test_VT18_slot7_refused : refusalOf (execute (vec 0xef12 [] [])) = some (.op14Unlisted 0xef12) := by decide
theorem test_VT19_slot6_nop : nextOf (execute (lax (vec 0xe612 [(1, 0x1111)] []))) = some (lax (vec 0xe612 [(1, 0x1111)] [])) := by decide
/-- The vectors VT1, VT4 and VT14 in words of the slots another map gives the operations (R150, D9). -/
theorem test_remapped_and : xAfter (remapped (vec 0xe612 [(1, 0x1234), (2, 0x0ff0)] [])) 1 = some 0x0230 := by decide
theorem test_remapped_orr : xAfter (remapped (vec 0xed34 [(3, 0x1200), (4, 0x0034)] [])) 3 = some 0x1234 := by decide
theorem test_remapped_stb : byteAfter (remapped (vec 0xe146 [(4, 0x1234), (6, 0x0043)] [])) 0x43 = some 0x34 := by decide
theorem test_VI1_int : traceAfter (vec 0xf105 [] []) = some [.unimplemented .int 0xf105] := by decide
theorem test_VI3_int_refused : refusalOf (execute (noStubs (vec 0xf000 [] []))) = some (.stub .int 0xf000) := by decide

/-! ## Fetch, host order, and the first step after reset -/

/-- A state about to fetch at `pc`. -/
def at_ (pc : Word) (mem : List Host.Cell) : State := { State.reset with regs := regsOf [(15, pc)], mem := mem }

/-- MAR, CIR and PC after a fetch. -/
def fetchTriple (s : State) : Option (Word × Word × Word) :=
  match fetch s with
  | .ok t => some (t.mar, t.cir, t.pc)
  | .error _ => none

/-- The fault of a fetch. -/
def fetchFault (s : State) : Option Fault :=
  match fetch s with
  | .ok _ => none
  | .error f => some f

theorem test_VF2_odd_pc : fetchTriple (at_ 0x0011 [(0x11, 0x34), (0x12, 0x12)]) = some (0x0011, 0x1234, 0x0013) := by decide
theorem test_VF3_pc_fffe : fetchTriple (at_ 0xfffe [(0xfffe, 0x02), (0xffff, 0x50)]) = some (0xfffe, 0x5002, 0x0000) := by decide
theorem test_VF4_pc_ffff : fetchTriple (at_ 0xffff [(0xffff, 0x07)]) = some (0xffff, 0x0007, 0x0001) := by decide
theorem test_VF5_pc_ffff_strict : fetchFault (strict (at_ 0xffff [])) = some (.addrOverflow 0x10000) := by decide
theorem test_VF10_pc_out_of_range : fetchFault (small (at_ 0x0100 [])) = some (.memOutOfRange 0x0100) := by decide
theorem test_VF11_second_byte_out_of_range : fetchFault (small (at_ 0x00ff [])) = some (.memOutOfRange 0x0100) := by decide
theorem test_VF8_fetch_twice :
    (requestExecute (requestFetch (requestFetch (at_ 0 [(0, 0x01), (1, 0x21), (2, 0x02), (3, 0x21)])))).reg 1 = 0x0002 := by decide
theorem test_VS5_faulted_str_keeps_low_byte :
    Memory.read (requestExecute (strict (vec 0x8310 [(3, 0xbeef), (1, 0xffff)] []))).mem 0xffff = 0xef := by decide
theorem test_first_step_runs_placed_word :
    (nextOf (step (State.reset.withFetchWord 16 0x5230))).map (State.reg · 2) = some 0x0030 := by decide

/-! ## Witnesses: states and operands that meet the hypotheses of the statements, at the ends of their ranges. The test_decode_ theorems are
the witnesses of the mask hypotheses. -/

/-- STR R3, [R1, #0] at the last address (VS4): the second byte is at 0x0000. -/
def strTop : State := vec 0x8310 [(3, 0xbeef), (1, 0xffff)] []

/-- STB R4, [R6] (VT14). -/
def stbState : State := vec 0xe546 [(4, 0x1234), (6, 0x0043)] [(0x44, 0x77)]

theorem test_witness_word_access_top : addr16 strTop ((strTop.reg 1).toNat + (0 : BitVec 4).toNat * 2) = .ok 0xffff ∧ WordAt strTop 0xffff 0x0000 ∧ Memory.wf strTop.mem :=
  ⟨rfl, ⟨by decide, rfl, by decide⟩, by decide⟩
theorem test_witness_word_access_last_pair : WordAt (small (at_ 0x00fe [])) 0x00fe 0x00ff := ⟨by decide, rfl, by decide⟩
theorem test_witness_wordStop_low : WordStop (small (at_ 0x0100 [])) 0x0100 (.memOutOfRange 0x0100) := .inl ⟨by decide, rfl⟩
theorem test_witness_wordStop_overflow : WordStop (strict strTop) 0xffff (.addrOverflow 0x10000) := .inr (.inl ⟨by decide, rfl⟩)
theorem test_witness_wordStop_high : WordStop (small (at_ 0x00ff [])) 0x00ff (.memOutOfRange 0x0100) :=
  .inr (.inr ⟨by decide, 0x0100, rfl, by decide, rfl⟩)
theorem test_witness_loadStoreStop_base :
    LoadStoreStop (strict (vec 0x721f [(1, 0xfff0)] [])) 1 15 (.addrOverflow 0x1000e) := .inl rfl
theorem test_witness_str_completes : Memory.wf strTop.mem ∧ ∃ t, exec (.str 3 1 0) strTop = .next t := ⟨by decide, _, rfl⟩
theorem test_witness_shift_round_trip_16 :
    ((vec 0xb21f [] []).reg 1).toNat < 2 ^ (16 - ((15 : BitVec 4).toNat + 1)) := by decide
theorem test_witness_shift_round_trip_4 :
    ((vec 0xb213 [(1, 0x0abc)] []).reg 1).toNat < 2 ^ (16 - ((3 : BitVec 4).toNat + 1)) := by decide
theorem test_witness_stub_nop : (vec 0xd123 [] []).params.stubPolicy = .nop := rfl
theorem test_witness_stub_refuse : (noStubs (vec 0xd123 [] [])).params.stubPolicy = .refuse := rfl
theorem test_witness_default_map : (vec 0xe012 [] []).params.op14Map[(0 : Fin 8)] = .and ∧
    (vec 0xe112 [] []).params.op14Map[(1 : Fin 8)] = .orr ∧ (vec 0xe212 [] []).params.op14Map[(2 : Fin 8)] = .xor ∧
    (vec 0xe312 [] []).params.op14Map[(3 : Fin 8)] = .not := by decide
theorem test_witness_ldb_last_byte : (small (vec 0xe456 [(6, 0x00ff)] [])).params.op14Map[(4 : Fin 8)] = .ldb ∧
    ((small (vec 0xe456 [(6, 0x00ff)] [])).reg 6).toNat < (small (vec 0xe456 [(6, 0x00ff)] [])).params.memSize := by decide
theorem test_witness_ldb_first_outside : (small (vec 0xe456 [(6, 0x0100)] [])).params.op14Map[(4 : Fin 8)] = .ldb ∧
    (small (vec 0xe456 [(6, 0x0100)] [])).params.memSize ≤ ((small (vec 0xe456 [(6, 0x0100)] [])).reg 6).toNat := by decide
theorem test_witness_stb_in_range : stbState.params.op14Map[(5 : Fin 8)] = .stb ∧ Memory.wf stbState.mem ∧
    (stbState.reg 6).toNat < stbState.params.memSize := by decide
theorem test_witness_stb_first_outside : (small (vec 0xe546 [(6, 0x0100)] [])).params.op14Map[(5 : Fin 8)] = .stb ∧
    (small (vec 0xe546 [(6, 0x0100)] [])).params.memSize ≤ ((small (vec 0xe546 [(6, 0x0100)] [])).reg 6).toNat := by decide
theorem test_witness_slots_refuse : (vec 0xe612 [] []).params.op14Map[(6 : Fin 8)] = .unlisted ∧
    (vec 0xe712 [] []).params.op14Map[(7 : Fin 8)] = .unlisted ∧ (vec 0xe612 [] []).params.op14Unlisted = .refuse := by decide
theorem test_witness_slots_nop : (lax (vec 0xe612 [] [])).params.op14Map[(6 : Fin 8)] = .unlisted ∧
    (lax (vec 0xe712 [] [])).params.op14Map[(7 : Fin 8)] = .unlisted ∧ (lax (vec 0xe612 [] [])).params.op14Unlisted = .nop := by decide
/-- Each operation of another map, at a slot that is not its default one, with the addresses at the two sides of MEM_SIZE. -/
theorem test_witness_remapped : (remapped State.reset).params.op14Map[(6 : Fin 8)] = .and ∧
    (remapped State.reset).params.op14Map[(5 : Fin 8)] = .orr ∧ (remapped State.reset).params.op14Map[(4 : Fin 8)] = .xor ∧
    (remapped State.reset).params.op14Map[(3 : Fin 8)] = .not ∧ (remapped State.reset).params.op14Map[(0 : Fin 8)] = .unlisted ∧
    (remapped State.reset).params.op14Unlisted = .refuse ∧ (remapped (lax State.reset)).params.op14Map[(0 : Fin 8)] = .unlisted ∧
    (remapped (lax State.reset)).params.op14Unlisted = .nop := by decide
theorem test_witness_remapped_last_byte : (remapped (small (vec 0 [(6, 0x00ff)] []))).params.op14Map[(2 : Fin 8)] = .ldb ∧
    (remapped (small (vec 0 [(6, 0x00ff)] []))).params.op14Map[(1 : Fin 8)] = .stb ∧
    Memory.wf (remapped (small (vec 0 [(6, 0x00ff)] []))).mem ∧
    ((remapped (small (vec 0 [(6, 0x00ff)] []))).reg 6).toNat < (remapped (small (vec 0 [(6, 0x00ff)] []))).params.memSize := by decide
theorem test_witness_remapped_first_outside : (remapped (small (vec 0 [(6, 0x0100)] []))).params.op14Map[(2 : Fin 8)] = .ldb ∧
    (remapped (small (vec 0 [(6, 0x0100)] []))).params.op14Map[(1 : Fin 8)] = .stb ∧
    (remapped (small (vec 0 [(6, 0x0100)] []))).params.memSize ≤ ((remapped (small (vec 0 [(6, 0x0100)] []))).reg 6).toNat := by decide
theorem test_witness_opcode14 : primaryOpcode 0xe812 = 14 ∧ primaryOpcode 0xef12 = 14 ∧
    (nextOf (execute ((vec 0 [] []).setCir 0xe812))).isSome = true ∧
    (faultOf (execute ((small (vec 0 [(6, 0x0100)] [])).setCir 0xe456))).isSome = true ∧
    (refusalOf (execute ((vec 0 [] []).setCir 0xef12))).isSome = true := by decide
theorem test_witness_stored_byte : stbState.params.op14Map[(5 : Fin 8)] = .stb ∧ stbState.params.op14Map[(4 : Fin 8)] = .ldb ∧
    Memory.wf stbState.mem ∧ ∃ t, exec (twoRegister 5 4 6) stbState = .next t := ⟨by decide, by decide, by decide, _, rfl⟩
theorem test_witness_stored_byte_remapped : (remapped stbState).params.op14Map[(1 : Fin 8)] = .stb ∧
    (remapped stbState).params.op14Map[(7 : Fin 8)] = .ldb ∧ Memory.wf (remapped stbState).mem ∧
    ∃ t, exec (twoRegister 1 4 6) (remapped stbState) = .next t := ⟨by decide, by decide, by decide, _, rfl⟩
theorem test_witness_addr16_clauses : (0xffff ≤ 65535 ∧ 65535 < 0x10000) ∧ strTop.params.addrOverflow = .wrap ∧
    (strict strTop).params.addrOverflow = .fault := by decide

/-- STR R3, [R1, #0] with R5 the address and R6 the address after it. -/
def strPair : State := vec 0x8310 [(3, 0xbeef), (1, 0x0040), (5, 0x0040), (6, 0x0041)] []

theorem test_witness_mixed_width_str : strPair.params.op14Map[(4 : Fin 8)] = .ldb ∧ Memory.wf strPair.mem ∧
    addr16 strPair ((strPair.reg 1).toNat + (0 : BitVec 4).toNat * 2) = .ok 0x0040 ∧ addr16 strPair 0x41 = .ok 0x0041 ∧ strPair.reg 5 = 0x0040 ∧ strPair.reg 6 = 0x0041 ∧
    ∃ t, exec (.str 3 1 0) strPair = .next t := ⟨by decide, by decide, rfl, rfl, by decide, by decide, _, rfl⟩
theorem test_witness_mixed_width_stb : strPair.params.op14Map[(5 : Fin 8)] = .stb ∧ addr16 strPair ((strPair.reg 1).toNat + (0 : BitVec 4).toNat * 2) = .ok 0x0040 ∧
    (0x0040 : Word).toNat < strPair.params.memSize ∧ addr16 strPair 0x41 = .ok (strPair.reg 6) ∧
    Memory.wf strPair.mem ∧ ∃ t, exec (twoRegister 5 3 6) strPair = .next t := ⟨by decide, rfl, by decide, rfl, by decide, _, rfl⟩

/-- STR R3, [R1, #0] with the base at the next instruction. -/
def strNext : State := vec 0x8310 [(3, 0x5399), (1, 0x0102)] []

theorem test_witness_store_over_next : Memory.wf strNext.mem ∧ addr16 strNext ((strNext.reg 1).toNat + (0 : BitVec 4).toNat * 2) = .ok strNext.pc ∧
    ∃ t, exec (.str 3 1 0) strNext = .next t := ⟨by decide, rfl, _, rfl⟩
theorem test_witness_storesToMemory_false : storesToMemory (vec 0 [] []).params.op14Map (.addRR 1 2 3) = false ∧
    ∃ t, exec (.addRR 1 2 3) (vec 0 [] []) = .next t := ⟨by decide, _, rfl⟩

/-- MOV R2,#0x30 at address 0 (R94). -/
def movAtZero : State := at_ 0 [(0, 0x30), (1, 0x52)]

/-- A step that answers a next state, of an instruction whose destination is not R15. -/
theorem test_witness_step_next : movAtZero.status = .running ∧ WordAt movAtZero movAtZero.pc 0x0001 ∧
    decodeBytes [Memory.read movAtZero.mem movAtZero.pc.toNat, Memory.read movAtZero.mem 1] = .ok (.movImm 2 0x30, []) ∧
    (∃ u, fetch movAtZero = .ok u ∧ destination movAtZero.params.op14Map (decode u.cir) ≠ some 15) ∧
    ∃ t, step movAtZero = .next t ∧ t.Inv ∧ ∃ v, fetch t = .ok v :=
  ⟨rfl, ⟨by decide, rfl, by decide⟩, rfl, ⟨_, rfl, by decide⟩, _, rfl, by decide, _, rfl⟩
theorem test_witness_other_register_kept : destination (vec 0 [] []).params.op14Map (.addRR 1 2 3) ≠ some 2 ∧
    ∃ t, exec (.addRR 1 2 3) (vec 0 [] []) = .next t := ⟨by decide, _, rfl⟩
theorem test_witness_step_fault : ∃ f, step (small (at_ 0x0100 [])) = .fault f := ⟨_, rfl⟩
theorem test_witness_step_refused : ∃ r, step (at_ 0 [(1, 0xe6)]) = .refused r := ⟨_, rfl⟩
theorem test_witness_exec_refused : (∃ r, exec (.op14Slot6 1 2) (vec 0xe612 [] []) = .refused r) ∧
    ∃ r, exec (.int 1 5) (noStubs (vec 0xf105 [] [])) = .refused r := ⟨⟨_, rfl⟩, _, rfl⟩
theorem test_witness_exec_fault : (∃ f, exec (.ldb 5 6) (small (vec 0xe456 [(6, 0x0100)] [])) = .fault f) ∧
    ∃ f, exec (.str 3 1 0) (strict strTop) = .fault f := ⟨⟨_, rfl⟩, _, rfl⟩
theorem test_witness_marked : (State.reset.setStatus (.faulted (.memOutOfRange 0))).status = .faulted (.memOutOfRange 0) ∧
    (State.reset.setStatus (.refused (.op14Unlisted 0))).status = .refused (.op14Unlisted 0) := ⟨rfl, rfl⟩
theorem test_witness_full_memory : State.reset.MemoryCoversAllAddresses ∧ State.reset.status = .running ∧
    (lax State.reset).MemoryCoversAllAddresses ∧ (lax State.reset).params.stubPolicy = .nop ∧
    (lax State.reset).params.op14Unlisted = .nop := by decide
theorem test_witness_full_memory_step : ∃ t, step State.reset = .next t := ⟨_, rfl⟩

/-- The two sides of MEM_SIZE for a host write and for the bytes handed over at construction: 3 bytes over a Memory of 2, and 1 byte. -/
theorem test_witness_hostWrite : Memory.wf (small State.reset).mem ∧ 0xff < (small State.reset).params.memSize ∧
    (small State.reset).params.memSize ≤ 0x100 := by decide
theorem test_witness_construct_bytes : 1 < tiny.params.memSize ∧ ([7, 8, 9] : List Byte)[1]? = some 8 ∧ tiny.params.memSize ≤ 2 ∧
    ([7] : List Byte).length ≤ 1 := by decide
theorem test_construct_bytes : Memory.read (respond (.construct [7, 8, 9]) tiny).1.mem 1 = 8 ∧
    Memory.read (respond (.construct [7, 8, 9]) tiny).1.mem 2 = 0 := by decide
theorem test_witness_inv : movAtZero.Inv ∧ (small State.reset).Inv := by decide
theorem test_witness_execute_twice : (vec 0x2101 [(1, 5)] []).status = .running ∧ decode (vec 0x2101 [(1, 5)] []).cir = .addImm 1 1 := by decide
theorem test_witness_fetch_twice : State.reset.status = .running ∧ (requestFetch State.reset).status = .running ∧
    (requestFetch (requestFetch State.reset)).status = .running := by decide
theorem test_witness_run_stop : ∃ t, step State.reset = .next t ∧ decode t.cir = .stp 0 ∧ State.reset.params.haltOnStop = true :=
  ⟨_, rfl, by decide, rfl⟩
theorem test_witness_run_no_halt : ∃ t, step (noHalt State.reset) = .next t ∧ (noHalt State.reset).params.haltOnStop = false := ⟨_, rfl, rfl⟩
theorem test_witness_run_goes_on : ∃ t, step movAtZero = .next t ∧ ∀ code, decode t.cir ≠ .stp code :=
  ⟨_, rfl, fun _ h => Instr.noConfusion h⟩
theorem test_witness_stopped_str : (strict strTop).status = .running ∧ Memory.wf (strict strTop).mem ∧
    decode (strict strTop).cir = .str 3 1 0 ∧ addr16 (strict strTop) (((strict strTop).reg 1).toNat + (0 : BitVec 4).toNat * 2) = .ok 0xffff ∧
    (0xffff : Word).toNat < (strict strTop).params.memSize ∧ exec (.str 3 1 0) (strict strTop) = .fault (.addrOverflow 0x10000) :=
  ⟨rfl, by decide, by decide, rfl, by decide, rfl⟩

end Sys2Proof.Tests
end

section
/-! The invariant of the machine (R6, R34, R41): it speaks of the parameters and the Memory alone, and no phase changes the parameters or
writes a byte at or above MEM_SIZE. -/

namespace Sys2Proof.Machine

section Invariant
variable {s t : State} {i : Instr} {m m' : List Host.Cell}

/-- What an instruction stores keeps the canonical form. -/
theorem Stored.wf {size : Nat} (h : Stored size m m') (hm : Memory.wf m) : Memory.wf m' := by
  cases h with
  | byte a b => exact Memory.wf_write hm a b
  | word a a' b b' => exact Memory.wf_write (Memory.wf_write hm a b) a' b'

/-- What an instruction stores lies below MEM_SIZE. -/
theorem Stored.within {size : Nat} (h : Stored size m m') (hm : Memory.within size m) : Memory.within size m' := by
  cases h with
  | byte a b ha => exact Memory.within_write hm ha b
  | word a a' b b' ha ha' => exact Memory.within_write (Memory.within_write hm ha b) ha' b'

/-- The invariant reads the parameters and the Memory alone. -/
theorem State.Inv.congr (h : s.Inv) (hp : t.params = s.params) (hm : t.mem = s.mem) : t.Inv := by
  simpa only [State.Inv, hp, hm] using h

/-- Storing below MEM_SIZE keeps the invariant. -/
theorem State.Inv.setMem (h : s.Inv) (hm : Stored s.params.memSize s.mem m) : (s.setMem m).Inv := by
  obtain ⟨hparams, hwf, hwithin⟩ := h
  exact ⟨hparams, hm.wf hwf, hm.within hwithin⟩

/-- The fetch phase keeps the invariant: it writes MAR, CIR and the PC (R80). -/
theorem State.Inv.fetched (h : s.Inv) (w : Word) : (fetched s w).Inv :=
  h.congr (params_fetched w) (mem_fetched w)

/-- The execute phase keeps the invariant, whatever the instruction: of its effects only a store touches what the invariant reads. -/
theorem exec_keeps_inv (hs : s.Inv) (h : exec i s = .next t) : t.Inv := by
  cases exec_effect h with
  | register d v => exact hs.congr (params_setReg s d v) (mem_setReg s d v)
  | event e => exact hs.congr (params_emit s e) (mem_emit s e)
  | memory m _ _ hm => exact hs.setMem hm
  | nothing => exact hs

/-- A step keeps the invariant: its fetch does, and then its execute phase does. -/
theorem step_keeps_inv (hs : s.Inv) (h : step s = .next t) : t.Inv := by
  obtain ⟨-, w, -, hexec⟩ := step_next h
  exact exec_keeps_inv (hs.fetched w) hexec

/-- A Memory with nothing listed has the invariant under any legal parameters. -/
theorem inv_construct_nil {p : Params} (hp : p.wellFormed = true) : (State.construct p []).Inv :=
  ⟨hp, ⟨.nil, List.forall_mem_nil _⟩, List.forall_mem_nil _⟩

/-- The default parameters are among those R6 admits. -/
theorem wellFormed_defaultParams : defaultParams.wellFormed = true := rfl

end Invariant

/-- Settles O49: the fetched state has the invariant, and every effect of the execute phase keeps it. -/
theorem stepKeepsInvariant : Obligations.StepKeepsInvariant := fun _ _ => step_keeps_inv

/-- Settles O51: the default parameters are legal, and the Memory of the reset state lists nothing. -/
theorem resetHasInvariant : Obligations.ResetHasInvariant := inv_construct_nil wellFormed_defaultParams

end Sys2Proof.Machine
end

section
/-! The registers and the PC (R23, R24, R33, R87): the execute phase writes its destination alone, so the PC an instruction leaves is the
fetch's unless that destination is R15. -/

namespace Sys2Proof.Machine

section Registers
variable {s t : State} {i : Instr} {r : RegIdx}

/-- Every general register is zero after construction (R33). -/
@[simp] theorem reg_construct (p : Params) (m : List Host.Cell) : (State.construct p m).reg r = 0 :=
  Vector.getElem_replicate r.isLt

/-- A register that is not the destination of the instruction is kept (R23). -/
theorem reg_exec_of_ne_destination (h : exec i s = .next t) (hr : destination s.params.op14Map i ≠ some r) :
    t.reg r = s.reg r := by
  cases exec_effect h with
  | register d v hd =>
    have hrd : r ≠ d := fun e => hr (e ▸ hd)
    exact reg_setReg_ne s d r v hrd
  | event e => exact reg_emit s r e
  | memory m => exact reg_setMem s r m
  | nothing => rfl

/-- Whatever it reads, a fetch that succeeds sets MAR to the PC it starts from (R80, R87). -/
theorem mar_fetch (h : fetch s = .ok t) : t.mar = s.pc := by
  obtain ⟨w, -, rfl⟩ := fetch_ok h
  exact mar_fetched w

/-- A step to a next state is a fetch and then the execute phase on what the fetch leaves (R89). -/
theorem exec_of_step_next {u : State} (hu : fetch s = .ok u) (h : step s = .next t) : exec (decode u.cir) u = .next t := by
  obtain ⟨-, w, hw, hexec⟩ := step_next h
  obtain rfl : u = fetched s w := Except.ok.inj (hu.symm.trans (fetch_of_readWord hw))
  exact hexec

/-- A fetch that succeeds advances the PC by 2 and keeps the parameters (R80). -/
theorem pc_params_fetch (h : fetch s = .ok t) : t.pc = s.pc + 2 ∧ t.params = s.params := by
  obtain ⟨w, -, rfl⟩ := fetch_ok h
  exact ⟨pc_fetched w, params_fetched w⟩

/-- A step whose instruction does not write R15 leaves the PC the fetch set (R24, R87). -/
theorem pc_step_of_ne_destination {u : State} (hu : fetch s = .ok u) (h : step s = .next t)
    (hd : destination s.params.op14Map (decode u.cir) ≠ some pcIdx) : t.pc = s.pc + 2 := by
  obtain ⟨hpc, hparams⟩ := pc_params_fetch hu
  rw [← hparams] at hd
  calc t.pc = u.pc := reg_exec_of_ne_destination (exec_of_step_next hu h) hd
    _ = s.pc + 2 := hpc

end Registers

/-- Settles O41: of the effects of the execute phase only a register write touches a register, and it writes the destination. -/
theorem onlyDestinationRegisterIsWritten : Obligations.OnlyDestinationRegisterIsWritten :=
  fun _ _ _ _ => reg_exec_of_ne_destination

/-- Settles O43: the fetch advances the PC by 2, the execute phase keeps it unless R15 is the destination, and every fetch sets MAR from
the PC it finds. -/
theorem pcMovesByTwoOrByDestination : Obligations.PcMovesByTwoOrByDestination := by
  intro s t u hu hstep
  refine ⟨fun hd => ?_, fun v => mar_fetch⟩
  rw [pc_step_of_ne_destination hu hstep hd]
  exact BitVec.toNat_add s.pc 2

/-- Settles O52: the registers are zero by their replication, the PC as R15, and the other parts as construction gives them. -/
theorem constructionZeroesTheCore : Obligations.ConstructionZeroesTheCore :=
  fun p m => ⟨fun _ => reg_construct p m, reg_construct p m, rfl, rfl, rfl, rfl, rfl⟩

end Sys2Proof.Machine
end

section
/-! The Memory (R40 to R55, R93): what a read finds after a store, which instructions store, and that a Memory of every 16-bit address
with wrapping addresses leaves no access a way to stop. -/

namespace Sys2Proof.Machine

section StoreThenRead
variable {s t : State} {slot : Fin 8} {d n a : RegIdx} {imm4 : BitVec 4} {ea ea' v : Word}

/-- After a word is written its low byte stands at its address and its high byte at the next one (R47). -/
theorem read_of_writeWord (hm : Memory.wf s.mem) (h' : addr16 s (ea.toNat + 1) = .ok ea') (h : writeWord s ea v = .ok t) :
    Memory.read t.mem ea.toNat = lowByte v ∧ Memory.read t.mem ea'.toNat = highByte v := by
  obtain ⟨b', hb', -, -, rfl⟩ := writeWord_ok h
  obtain rfl : ea' = b' := Except.ok.inj (h'.symm.trans hb')
  constructor
  · calc Memory.read (Memory.write (Memory.write s.mem ea.toNat (lowByte v)) ea'.toNat (highByte v)) ea.toNat
      _ = Memory.read (Memory.write s.mem ea.toNat (lowByte v)) ea.toNat := Memory.read_write_ne _ _ (addr16_succ_ne h').symm
      _ = lowByte v := Memory.read_write_same hm.1 _ _
  · exact Memory.read_write_same (Memory.wf_write hm _ _).1 _ _

/-- Writing a word keeps the registers and all control state. -/
theorem frame_of_writeWord (h : writeWord s ea v = .ok t) : RegistersKept s t ∧ ControlKept s t := by
  obtain ⟨_, -, -, -, rfl⟩ := writeWord_ok h
  exact ⟨fun r => reg_setMem s r _, mar_setMem s _, cir_setMem s _, status_setMem s _, params_setMem s _⟩

/-- A word that can be written can be accessed. -/
theorem wordAt_of_writeWord (h' : addr16 s (ea.toNat + 1) = .ok ea') (h : writeWord s ea v = .ok t) : WordAt s ea ea' := by
  obtain ⟨b', hb', hlo, hhi, -⟩ := writeWord_ok h
  obtain rfl : ea' = b' := Except.ok.inj (h'.symm.trans hb')
  exact ⟨hlo, h', hhi⟩

/-- Which words can be accessed depends on the parameters alone. -/
theorem WordAt.congr (h : WordAt s ea ea') (hp : t.params = s.params) : WordAt t ea ea' := by
  simpa only [WordAt, hp, addr16_congr hp] using h

/-- A word written is the word read back (R43, R44). -/
theorem readWord_of_writeWord (hm : Memory.wf s.mem) (h : writeWord s ea v = .ok t) : readWord t ea = .ok v := by
  obtain ⟨ea', h', -⟩ := writeWord_ok h
  obtain ⟨-, -, -, -, hp⟩ := frame_of_writeWord h
  obtain ⟨hlo, hnext, hhi⟩ := (wordAt_of_writeWord h' h).congr hp
  obtain ⟨hlow, hhigh⟩ := read_of_writeWord hm h' h
  rw [readWord_of_readable hlo hnext hhi, hlow, hhigh, joinBytes_split]

/-- A STR that completes is the write of its word at its effective address. -/
theorem writeWord_of_exec_str (he : addr16 s ((s.reg a).toNat + imm4.toNat * 2) = .ok ea) (h : exec (.str n a imm4) s = .next t) :
    writeWord s ea (s.reg n) = .ok t := by
  obtain ⟨b, hb, hw⟩ := storedWord_ok (outcomeOf_eq_next.mp h)
  obtain rfl : ea = b := Except.ok.inj (he.symm.trans hb)
  exact hw

/-- LDR of a word that can be accessed loads its two bytes, the one at the higher address as the high byte (R120). -/
theorem exec_ldr_of_wordAt (he : addr16 s ((s.reg a).toNat + imm4.toNat * 2) = .ok ea) (h : WordAt s ea ea') :
    ∃ u, exec (.ldr d a imm4) s = .next u ∧
      (u.reg d).toNat = 256 * (Memory.read s.mem ea'.toNat).toNat + (Memory.read s.mem ea.toNat).toNat :=
  ⟨_, loadInto_eq_next.mpr ⟨_, loadedWord_of_wordAt he h, rfl⟩, by rw [reg_setReg_same, toNat_joinBytes]⟩

/-- LDB of a byte below MEM_SIZE loads that byte, at whichever slot it stands (R150, R155). -/
theorem exec_ldb_of_lt (hop : s.params.op14Map[slot] = .ldb) (h : (s.reg n).toNat < s.params.memSize) :
    ∃ u, exec (twoRegister slot d n) s = .next u ∧ (u.reg d).toNat = (Memory.read s.mem (s.reg n).toNat).toNat := by
  refine ⟨s.setReg d (zext16 (Memory.read s.mem (s.reg n).toNat)), ?_, ?_⟩
  · rw [exec_twoRegister, op14Dispatch_ldb hop]
    exact loadInto_eq_next.mpr ⟨_, loadedByte_of_lt h, rfl⟩
  · rw [reg_setReg_same, toNat_zext16]

/-- Everything a next state of STB says, at whichever slot it stands (R150, R156). -/
theorem exec_stb_next (hop : s.params.op14Map[slot] = .stb) (h : exec (twoRegister slot d n) s = .next t) :
    (s.reg n).toNat < s.params.memSize ∧ t = s.setMem (Memory.write s.mem (s.reg n).toNat (lowByte (s.reg d))) := by
  rw [exec_twoRegister, op14Dispatch_stb hop] at h
  exact wr8_ok (outcomeOf_eq_next.mp h)

end StoreThenRead

section Stops
variable {s t : State} {i : Instr} {slot : Fin 8} {d n : RegIdx} {f : Fault} {r : Refusal}

/-- An op-14 slot faults only as LDB or STB, on the byte its address register names (R155, R156). -/
theorem op14Dispatch_fault (h : op14Dispatch slot d n s = .fault f) :
    (s.params.op14Map[slot] = .ldb ∨ s.params.op14Map[slot] = .stb) ∧ s.params.memSize ≤ (s.reg n).toNat ∧
      f = .memOutOfRange (s.reg n).toNat := by
  cases hop : s.params.op14Map[slot] with
  | and => rw [op14Dispatch_and hop] at h; cases h
  | orr => rw [op14Dispatch_orr hop] at h; cases h
  | xor => rw [op14Dispatch_xor hop] at h; cases h
  | not => rw [op14Dispatch_not hop] at h; cases h
  | ldb =>
    rw [op14Dispatch_ldb hop] at h
    obtain ⟨hf, hge⟩ := loadedByte_error (loadInto_eq_fault.mp h)
    exact ⟨.inl rfl, hge, hf⟩
  | stb =>
    rw [op14Dispatch_stb hop] at h
    obtain ⟨hf, hge⟩ := wr8_error (outcomeOf_eq_fault.mp h)
    exact ⟨.inr rfl, hge, hf⟩
  | unlisted =>
    rw [op14Dispatch_unlisted hop, op14UnlistedOp] at h
    split at h <;> cases h

/-- An op-14 slot refuses only as an unlisted operation under OP14_UNLISTED = refuse (R158). -/
theorem op14Dispatch_refused (h : op14Dispatch slot d n s = .refused r) :
    s.params.op14Map[slot] = .unlisted ∧ s.params.op14Unlisted = .refuse ∧ r = .op14Unlisted s.cir := by
  cases hop : s.params.op14Map[slot] with
  | and => rw [op14Dispatch_and hop] at h; cases h
  | orr => rw [op14Dispatch_orr hop] at h; cases h
  | xor => rw [op14Dispatch_xor hop] at h; cases h
  | not => rw [op14Dispatch_not hop] at h; cases h
  | ldb => rw [op14Dispatch_ldb hop] at h; exact absurd h loadInto_ne_refused
  | stb => rw [op14Dispatch_stb hop] at h; exact absurd h outcomeOf_ne_refused
  | unlisted =>
    rw [op14Dispatch_unlisted hop, op14UnlistedOp] at h
    split at h
    · cases h; exact ⟨rfl, ‹_›, rfl⟩
    · cases h

/-- A stub never faults. -/
theorem stubOutcome_ne_fault {kind : StubKind} : stubOutcome kind s ≠ .fault f := by
  unfold stubOutcome
  split <;> exact nofun

/-- A stub refuses only under STUB_POLICY = refuse (R140, R141, R170). -/
theorem stubOutcome_refused {kind : StubKind} (h : stubOutcome kind s = .refused r) :
    s.params.stubPolicy = .refuse ∧ r = .stub kind s.cir := by
  unfold stubOutcome at h
  split at h
  · cases h
  · cases h; exact ⟨‹_›, rfl⟩

/-- The inversion of a fault of exec: a stop of LDR's or STR's word access, or a byte access of an op-14 slot out of range (R181). -/
theorem exec_fault (h : exec i s = .fault f) :
    (∃ d a imm4, (i = .ldr d a imm4 ∨ i = .str d a imm4) ∧ LoadStoreStop s a imm4 f) ∨
    ∃ slot d n, i = twoRegister slot d n ∧ (s.params.op14Map[slot] = .ldb ∨ s.params.op14Map[slot] = .stb) ∧
      s.params.memSize ≤ (s.reg n).toNat ∧ f = .memOutOfRange (s.reg n).toNat := by
  cases hs : Instr.slot i with
  | some slot =>
    obtain ⟨d, n, rfl⟩ := eq_twoRegister_of_slot hs
    rw [exec_twoRegister] at h
    exact .inr ⟨slot, d, n, rfl, op14Dispatch_fault h⟩
  | none =>
    cases i with
    | ldr d a imm4 =>
      refine .inl ⟨d, a, imm4, .inl rfl, (loadedWord_error (loadInto_eq_fault.mp h)).imp_right ?_⟩
      exact fun ⟨ea, he, hr⟩ => ⟨ea, he, readWord_error_iff.mp hr⟩
    | str n a imm4 =>
      refine .inl ⟨n, a, imm4, .inr rfl, (storedWord_error (outcomeOf_eq_fault.mp h)).imp_right ?_⟩
      exact fun ⟨ea, he, hw⟩ => ⟨ea, he, writeWord_error_iff.mp hw⟩
    | branch0 | branch1 | int => exact absurd h stubOutcome_ne_fault
    | stp | addRR | addImm | subRR | subImm | movImm | cmpImm | nan | nor | lsl | lsr => cases h
    | and | orr | xor | not | ldb | stb | op14Slot6 | op14Slot7 => cases hs

/-- A refusal of exec is asked for by one of the two policies (R181). -/
theorem exec_refused_policy (h : exec i s = .refused r) :
    s.params.stubPolicy = .refuse ∨ s.params.op14Unlisted = .refuse := by
  cases hs : Instr.slot i with
  | some slot =>
    obtain ⟨d, n, rfl⟩ := eq_twoRegister_of_slot hs
    rw [exec_twoRegister] at h
    obtain ⟨-, hpolicy, -⟩ := op14Dispatch_refused h
    exact .inr hpolicy
  | none =>
    cases i with
    | branch0 | branch1 | int => exact .inl (stubOutcome_refused h).1
    | ldr => exact absurd h loadInto_ne_refused
    | str => exact absurd h outcomeOf_ne_refused
    | stp | addRR | addImm | subRR | subImm | movImm | cmpImm | nan | nor | lsl | lsr => cases h
    | and | orr | xor | not | ldb | stb | op14Slot6 | op14Slot7 => cases hs

end Stops

section Frames
variable {s t : State} {i : Instr}

/-- The execute phase keeps MAR, CIR, the mark and the parameters: none of its effects touches them (R27, R84, R181). -/
theorem exec_keeps_control (h : exec i s = .next t) : ControlKept s t := by
  cases exec_effect h with
  | register d v => exact ⟨mar_setReg s d v, cir_setReg s d v, status_setReg s d v, params_setReg s d v⟩
  | event e => exact ⟨mar_emit s e, cir_emit s e, status_emit s e, params_emit s e⟩
  | memory m => exact ⟨mar_setMem s m, cir_setMem s m, status_setMem s m, params_setMem s m⟩
  | nothing => exact ⟨rfl, rfl, rfl, rfl⟩

/-- A step keeps the mark and the parameters (R34, R181). -/
theorem step_keeps_status_params (h : step s = .next t) : t.status = s.status ∧ t.params = s.params := by
  obtain ⟨-, w, -, hexec⟩ := step_next h
  obtain ⟨-, -, hstatus, hparams⟩ := exec_keeps_control hexec
  exact ⟨hstatus.trans (status_fetched w), hparams.trans (params_fetched w)⟩

/-- An instruction that does not store keeps every byte (R48, R93). -/
theorem exec_keeps_memory (h : exec i s = .next t) (hi : storesToMemory s.params.op14Map i = false) : MemoryKept s t := by
  cases exec_effect h with
  | register d v => exact fun _ => congrArg (Memory.read · _) (mem_setReg s d v)
  | event e => exact fun _ => congrArg (Memory.read · _) (mem_emit s e)
  | memory m _ hm => rw [hi] at hm; cases hm
  | nothing => exact fun _ => rfl

end Frames

section FullMemory
variable {s t : State} {i : Instr} {f : Fault}

/-- A full Memory has a byte at every address a register can hold (R41). -/
theorem State.MemoryCoversAllAddresses.lt (h : s.MemoryCoversAllAddresses) (a : Word) : a.toNat < s.params.memSize := by
  rw [h.1]
  exact a.isLt

/-- The setting is one of the parameters alone. -/
theorem State.MemoryCoversAllAddresses.congr (h : s.MemoryCoversAllAddresses) (hp : t.params = s.params) :
    t.MemoryCoversAllAddresses := by
  simpa only [State.MemoryCoversAllAddresses, hp] using h

/-- With wrapping addresses every computed address is one (R42). -/
theorem State.MemoryCoversAllAddresses.addr16_ne_error (h : s.MemoryCoversAllAddresses) (a : Nat) : addr16 s a ≠ .error f := by
  rw [addr16_wrap h.2]
  exact nofun

/-- No word access stops. -/
theorem State.MemoryCoversAllAddresses.not_wordStop (h : s.MemoryCoversAllAddresses) (a : Word) : ¬ WordStop s a f := by
  rintro (⟨hlow, -⟩ | ⟨-, haddr⟩ | ⟨-, a', -, hhigh, -⟩)
  · exact Nat.not_le.mpr (h.lt a) hlow
  · exact h.addr16_ne_error _ haddr
  · exact Nat.not_le.mpr (h.lt a') hhigh

/-- Every word can be read. -/
theorem State.MemoryCoversAllAddresses.readWord_ok (h : s.MemoryCoversAllAddresses) (a : Word) : ∃ w, readWord s a = .ok w := by
  cases hr : readWord s a with
  | ok w => exact ⟨w, rfl⟩
  | error f => exact absurd (readWord_error_iff.mp hr) (h.not_wordStop a)

/-- No instruction faults. -/
theorem State.MemoryCoversAllAddresses.exec_ne_fault (h : s.MemoryCoversAllAddresses) : exec i s ≠ .fault f := by
  intro hf
  obtain ⟨_, _, _, -, haddr | ⟨ea, -, hstop⟩⟩ | ⟨_, _, n, -, -, hge, -⟩ := exec_fault hf
  · exact h.addr16_ne_error _ haddr
  · exact h.not_wordStop ea hstop
  · exact Nat.not_le.mpr (h.lt (s.reg n)) hge

/-- A step of a running state is an instruction run in a state with the same parameters: its fetch succeeds. -/
theorem State.MemoryCoversAllAddresses.step_eq_exec (h : s.MemoryCoversAllAddresses) (hs : s.status = .running) :
    ∃ i u, step s = exec i u ∧ u.params = s.params := by
  obtain ⟨w, hw⟩ := h.readWord_ok s.pc
  exact ⟨decode w, fetched s w, step_of_readWord hs hw, params_fetched w⟩

/-- No step of a running state faults. -/
theorem State.MemoryCoversAllAddresses.step_ne_fault (h : s.MemoryCoversAllAddresses) (hs : s.status = .running) :
    step s ≠ .fault f := by
  obtain ⟨i, u, hstep, hp⟩ := h.step_eq_exec hs
  rw [hstep]
  exact (h.congr hp).exec_ne_fault

/-- With neither policy set to refuse, every step of a running state completes. -/
theorem State.MemoryCoversAllAddresses.step_completes (h : s.MemoryCoversAllAddresses) (hs : s.status = .running)
    (hstub : s.params.stubPolicy = .nop) (hunlisted : s.params.op14Unlisted = .nop) : ∃ t, step s = .next t := by
  cases hstep : step s with
  | next t => exact ⟨t, rfl⟩
  | fault f => exact absurd hstep (h.step_ne_fault hs)
  | refused r =>
    obtain ⟨i, u, hexec, hp⟩ := h.step_eq_exec hs
    have hpolicy := exec_refused_policy (hexec.symm.trans hstep)
    simp [hp, hstub, hunlisted] at hpolicy

end FullMemory

/-- Settles O48: no access of a full Memory can stop, so neither the fetch nor the execute phase faults; a step keeps the mark and the
parameters; and a refusal needs a policy that asks for it. -/
theorem fullMemoryNeverFaults : Obligations.FullMemoryNeverFaults := by
  refine ⟨fun s hfull hrun => ⟨fun f => hfull.step_ne_fault hrun, fun t hstep => ?_⟩, fun s hfull hrun hstub hunlisted => ?_⟩
  · obtain ⟨hstatus, hparams⟩ := step_keeps_status_params hstep
    exact ⟨hfull.congr hparams, hstatus.trans hrun⟩
  · obtain ⟨t, hstep⟩ := hfull.step_completes hrun hstub hunlisted
    obtain ⟨hstatus, hparams⟩ := step_keeps_status_params hstep
    exact ⟨t, hstep, hfull.congr hparams, hstatus.trans hrun, hparams ▸ hstub, hparams ▸ hunlisted⟩

/-- Settles O30: the bytes STR leaves are the halves of its word, and STB's one byte leaves the byte below it as it was. -/
theorem mixedWidthAccessesAreLittleEndian : Obligations.MixedWidthAccessesAreLittleEndian := by
  constructor
  · intro slot n a imm4 d r s t ea ea' hop hm he h' hstr
    have hw := writeWord_of_exec_str he hstr
    obtain ⟨hregs, -, -, -, hp⟩ := frame_of_writeWord hw
    obtain ⟨hlt, -, hlt'⟩ := (wordAt_of_writeWord h' hw).congr hp
    obtain ⟨hlow, hhigh⟩ := read_of_writeWord hm h' hw
    rw [← hp] at hop
    constructor
    · intro hr
      obtain rfl : t.reg r = ea := (hregs r).trans hr
      obtain ⟨u, hu, hval⟩ := exec_ldb_of_lt (d := d) hop hlt
      exact ⟨u, hu, by rw [hval, hlow, toNat_lowByte]⟩
    · intro hr
      obtain rfl : t.reg r = ea' := (hregs r).trans hr
      obtain ⟨u, hu, hval⟩ := exec_ldb_of_lt (d := d) hop hlt'
      exact ⟨u, hu, by rw [hval, hhigh, toNat_highByte]⟩
  · intro slot d n e a imm4 s t ea hop hm he hea h' hstb
    obtain ⟨hn, ht⟩ := exec_stb_next hop hstb
    have hp : t.params = s.params := by rw [ht, params_setMem]
    have he' : addr16 t ((t.reg a).toNat + imm4.toNat * 2) = .ok ea := by rw [addr16_congr hp, ht, reg_setMem, he]
    have hword : WordAt s ea (s.reg n) := ⟨hea, h', hn⟩
    have hold : Memory.read t.mem ea.toNat = Memory.read s.mem ea.toNat := by
      rw [ht, mem_setMem, Memory.read_write_ne _ _ (addr16_succ_ne h').symm]
    have hnew : Memory.read t.mem (s.reg n).toNat = lowByte (s.reg d) := by
      rw [ht, mem_setMem, Memory.read_write_same hm.1]
    obtain ⟨u, hu, hval⟩ := exec_ldr_of_wordAt (d := e) he' (hword.congr hp)
    exact ⟨u, hu, by rw [hval, hnew, hold, toNat_lowByte]⟩

/-- Settles O31: STR keeps the PC and CIR, and the word it wrote is the word read back at the PC. -/
theorem storeIsSeenByNextFetch : Obligations.StoreIsSeenByNextFetch := by
  intro n a imm4 s t hm he hstr
  have hw := writeWord_of_exec_str he hstr
  obtain ⟨hregs, -, hcir, -⟩ := frame_of_writeWord hw
  have hpc : t.pc = s.pc := hregs pcIdx
  have hread : readWord t t.pc = .ok (s.reg n) := hpc ▸ readWord_of_writeWord hm hw
  exact ⟨hcir, _, fetch_of_readWord hread, cir_fetched _⟩

/-- Settles O32: of the effects of the execute phase only a store touches the Memory. -/
theorem onlyStoresChangeMemory : Obligations.OnlyStoresChangeMemory := fun _ _ _ => exec_keeps_memory

/-- Settles O29: an address of 16 bits is kept, and above it each setting has its own clause. -/
theorem addr16FollowsOverflowPolicy : Obligations.Addr16FollowsOverflowPolicy := by
  intro s a
  refine ⟨fun hle => ⟨_, addr16_of_le hle, ?_⟩, fun _ hwrap => ⟨_, addr16_wrap hwrap, BitVec.toNat_ofNat a 16⟩, ?_⟩
  · rw [BitVec.toNat_ofNat]
    exact Nat.mod_eq_of_lt (Nat.lt_succ_of_le hle)
  · exact fun hlt hfault => addr16_fault hfault hlt

end Sys2Proof.Machine
end

section
/-! The encoding (R60 to R76). Decoding inverts encoding because the fields of a packed word are what was packed; encoding inverts decoding
but for CIR[11] under opcode 14 because a word is its fields packed again; and no word has the fixed bits of two rows of the opcode table. -/

namespace Sys2Proof

section PackedFields
variable {w : Word}

/-- A field is known by its number. -/
theorem field_eq {lo n : Nat} {x : BitVec n} (h : w.toNat / 2 ^ lo % 2 ^ n = x.toNat) : w.extractLsb' lo n = x :=
  BitVec.eq_of_toNat_eq ((toNat_field w lo n).trans h)

/-- Formats RRR, MEM and SHF: the fields of the packed word. -/
theorem fields_packNibbles (op f g h : BitVec 4) :
    (packNibbles op f g h).extractLsb' 12 4 = op ∧ (packNibbles op f g h).extractLsb' 8 4 = f ∧
    (packNibbles op f g h).extractLsb' 4 4 = g ∧ (packNibbles op f g h).extractLsb' 0 4 = h := by
  refine ⟨field_eq ?_, field_eq ?_, field_eq ?_, field_eq ?_⟩ <;> rw [toNat_packNibbles] <;> omega

/-- Formats RI8, NI8 and INT: the fields of the packed word. -/
theorem fields_packByte (op f : BitVec 4) (imm8 : BitVec 8) :
    (packByte op f imm8).extractLsb' 12 4 = op ∧ (packByte op f imm8).extractLsb' 8 4 = f ∧
    (packByte op f imm8).extractLsb' 0 8 = imm8 := by
  refine ⟨field_eq ?_, field_eq ?_, field_eq ?_⟩ <;> rw [toNat_packByte] <;> omega

/-- Format R2: the fields of the packed word. -/
theorem fields_packTwo (slot : BitVec 3) (d n : RegIdx) :
    (packTwo slot d n).extractLsb' 12 4 = 0xe#4 ∧ (packTwo slot d n).extractLsb' 8 3 = slot ∧
    (packTwo slot d n).extractLsb' 4 4 = regBits d ∧ (packTwo slot d n).extractLsb' 0 4 = regBits n := by
  refine ⟨field_eq ?_, field_eq ?_, field_eq ?_, field_eq ?_⟩ <;>
    simp only [toNat_packTwo, toNat_regBits, BitVec.toNat_ofNat] <;> omega

/-- STP: the fields of its word (R63). -/
theorem fields_encode_stp (imm12 : BitVec 12) :
    (encode (.stp imm12)).extractLsb' 12 4 = 0#4 ∧ (encode (.stp imm12)).extractLsb' 0 12 = imm12 := by
  refine ⟨field_eq ?_, field_eq ?_⟩ <;> simp only [toNat_encode_stp, BitVec.toNat_ofNat] <;> omega

/-- BRANCH0: the fields of its word, bit 11 clear (R68). -/
theorem fields_encode_branch0 (cond : BitVec 4) (a : RegIdx) (imm3 : BitVec 3) :
    (encode (.branch0 cond a imm3)).extractLsb' 12 4 = 0xd#4 ∧ (encode (.branch0 cond a imm3)).extractLsb' 11 1 = 0#1 ∧
    (encode (.branch0 cond a imm3)).extractLsb' 7 4 = cond ∧ (encode (.branch0 cond a imm3)).extractLsb' 3 4 = regBits a ∧
    (encode (.branch0 cond a imm3)).extractLsb' 0 3 = imm3 := by
  refine ⟨field_eq ?_, field_eq ?_, field_eq ?_, field_eq ?_, field_eq ?_⟩ <;>
    simp only [toNat_encode_branch0, toNat_regBits, BitVec.toNat_ofNat] <;> omega

/-- BRANCH1: the fields of its word, bit 11 set (R68). -/
theorem fields_encode_branch1 (cond : BitVec 4) (imm7 : BitVec 7) :
    (encode (.branch1 cond imm7)).extractLsb' 12 4 = 0xd#4 ∧ (encode (.branch1 cond imm7)).extractLsb' 11 1 = 1#1 ∧
    (encode (.branch1 cond imm7)).extractLsb' 7 4 = cond ∧ (encode (.branch1 cond imm7)).extractLsb' 0 7 = imm7 := by
  refine ⟨field_eq ?_, field_eq ?_, field_eq ?_, field_eq ?_⟩ <;>
    simp only [toNat_encode_branch1, BitVec.toNat_ofNat] <;> omega

end PackedFields

section RoundTrip
variable {w : Word}

@[simp] theorem toFin_regBits (r : RegIdx) : (regBits r).toFin = r := rfl

/-- A word of format R2 decodes to the instruction of its slot (R69, R75). -/
theorem decode_packTwo (slot : BitVec 3) (d n : RegIdx) : decode (packTwo slot d n) = twoRegister slot.toFin d n := by
  obtain ⟨hop, hslot, hd, hn⟩ := fields_packTwo slot d n
  rw [decode_of_opcode14 (congrArg BitVec.toFin hop)]
  simp only [slotField, regField, hslot, hd, hn, toFin_regBits]

/-- Decoding inverts encoding: the opcode of the packed word picks the arm, and the fields are those packed. -/
theorem decode_encode (i : Instr) : decode (encode i) = i := by
  cases i
  case stp imm12 => simp [decode, primaryOpcode, fields_encode_stp]
  case addRR | subRR | nan | nor | ldr | str | lsl | lsr =>
    simp [decode, encode, primaryOpcode, regField, fields_packNibbles]
  case addImm | subImm | movImm | cmpImm | int =>
    simp [decode, encode, primaryOpcode, regField, fields_packByte]
  case branch0 | branch1 =>
    simp [decode, decodeBranch, primaryOpcode, regField, fields_encode_branch0, fields_encode_branch1]
  case and | orr | xor | not | ldb | stb | op14Slot6 | op14Slot7 => exact decode_packTwo _ _ _

/-- The instruction of a slot is encoded in format R2 with that slot. -/
theorem encode_twoRegister (slot : Fin 8) (d n : RegIdx) : encode (twoRegister slot d n) = packTwo (BitVec.ofFin slot) d n := by
  match slot with
  | 0 | 1 | 2 | 3 | 4 | 5 | 6 | 7 => rfl

/-- A word is its four nibbles packed again. -/
theorem packNibbles_fields {op : BitVec 4} (h : primaryOpcode w = op.toFin) :
    packNibbles op (w.extractLsb' 8 4) (w.extractLsb' 4 4) (w.extractLsb' 0 4) = w := by
  have hop : op.toNat = w.toNat / 4096 := (congrArg Fin.val h).symm.trans (val_primaryOpcode w)
  apply BitVec.eq_of_toNat_eq
  simp only [toNat_packNibbles, toNat_field, hop]
  omega

/-- A word is its upper two nibbles and its low byte packed again. -/
theorem packByte_fields {op : BitVec 4} (h : primaryOpcode w = op.toFin) :
    packByte op (w.extractLsb' 8 4) (w.extractLsb' 0 8) = w := by
  have hop : op.toNat = w.toNat / 4096 := (congrArg Fin.val h).symm.trans (val_primaryOpcode w)
  apply BitVec.eq_of_toNat_eq
  simp only [toNat_packByte, toNat_field, hop]
  omega

/-- A word of opcode 0 is the code of its STP packed again (R63). -/
theorem encode_stp_fields (h : primaryOpcode w = 0) : encode (.stp (w.extractLsb' 0 12)) = w := by
  have hop : 0 = w.toNat / 4096 := (congrArg Fin.val h).symm.trans (val_primaryOpcode w)
  apply BitVec.eq_of_toNat_eq
  simp only [toNat_encode_stp, toNat_field]
  omega

/-- An op-14 word is its fields and its bit 11 packed again. -/
theorem opcode14_append (h : primaryOpcode w = 14) :
    (0xe#4 ++ w.extractLsb' 11 1 ++ w.extractLsb' 8 3 ++ w.extractLsb' 4 4 ++ w.extractLsb' 0 4 : Word) = w := by
  have hop : 14 = w.toNat / 4096 := (congrArg Fin.val h).symm.trans (val_primaryOpcode w)
  apply BitVec.eq_of_toNat_eq
  simp only [toNat_append_add, toNat_field, BitVec.toNat_ofNat]
  omega

/-- Both variants of a branch are encoded with bit 11 as it was (R68). -/
theorem encode_decodeBranch (h : primaryOpcode w = 13) : encode (decodeBranch w) = w := by
  have hop : 13 = w.toNat / 4096 := (congrArg Fin.val h).symm.trans (val_primaryOpcode w)
  apply BitVec.eq_of_toNat_eq
  unfold decodeBranch
  split
  next h11 =>
    have h11 := (toNat_field w 11 1).symm.trans (congrArg BitVec.toNat h11)
    simp only [toNat_encode_branch0, toNat_field, val_regField, BitVec.toNat_ofNat] at *
    omega
  next h11 =>
    have h11 : w.toNat / 2 ^ 11 % 2 ^ 1 ≠ 0 := fun h0 => h11 (field_eq h0)
    simp only [toNat_encode_branch1, toNat_field]
    omega

/-- Encoding inverts decoding outside primary opcode 14, where every bit is kept. -/
theorem encode_decode_of_ne (h14 : primaryOpcode w ≠ 14) : encode (decode w) = w := by
  unfold decode
  split
  case h_1 h => exact encode_stp_fields h
  case h_2 h | h_4 h | h_8 h | h_9 h | h_10 h | h_11 h | h_12 h | h_13 h => exact packNibbles_fields h
  case h_3 h | h_5 h | h_6 h | h_7 h | h_16 h => exact packByte_fields h
  case h_14 h => exact encode_decodeBranch h
  case h_15 h => exact absurd h h14
  case h_17 k hk _ => omega

/-- Encoding a decoded op-14 word gives it back with bit 11 cleared (R69, R76). -/
theorem encode_decode_of_opcode14 (h14 : primaryOpcode w = 14) : encode (decode w) = w &&& 0xf7ff := by
  have hm : (0xf7ff : Word) = BitVec.allOnes 4 ++ 0#1 ++ BitVec.allOnes 3 ++ BitVec.allOnes 4 ++ BitVec.allOnes 4 := rfl
  rw [decode_of_opcode14 h14, encode_twoRegister]
  conv => rhs; rw [← opcode14_append h14, hm, BitVec.and_append, BitVec.and_append, BitVec.and_append, BitVec.and_append]
  simp only [BitVec.and_allOnes, BitVec.and_zero]
  rfl

end RoundTrip
section Rows
variable {w : Word} {i j : Instr}

/-- The row of every instruction admits its word. -/
theorem row_admits_encode (i : Instr) : i.row.admits (encode i) = true := by
  cases i with
  | stp => exact Laws.RowBits.stp _
  | addRR => exact Laws.RowBits.addRR _ _ _
  | addImm => exact Laws.RowBits.addImm _ _
  | subRR => exact Laws.RowBits.subRR _ _ _
  | subImm => exact Laws.RowBits.subImm _ _
  | movImm => exact Laws.RowBits.movImm _ _
  | cmpImm => exact Laws.RowBits.cmpImm _ _
  | ldr => exact Laws.RowBits.ldr _ _ _
  | str => exact Laws.RowBits.str _ _ _
  | nan => exact Laws.RowBits.nan _ _ _
  | nor => exact Laws.RowBits.nor _ _ _
  | lsl => exact Laws.RowBits.lsl _ _ _
  | lsr => exact Laws.RowBits.lsr _ _ _
  | branch0 => exact Laws.RowBits.branch0 _ _ _
  | branch1 => exact Laws.RowBits.branch1 _ _
  | and => exact Laws.RowBits.and _ _
  | orr => exact Laws.RowBits.orr _ _
  | xor => exact Laws.RowBits.xor _ _
  | not => exact Laws.RowBits.not _ _
  | ldb => exact Laws.RowBits.ldb _ _
  | stb => exact Laws.RowBits.stb _ _
  | op14Slot6 => exact Laws.RowBits.op14Slot6 _ _
  | op14Slot7 => exact Laws.RowBits.op14Slot7 _ _
  | int => exact Laws.RowBits.int _ _

/-- The rows of primary opcode 14 fix the opcode and the slot, and not bit 11 (R69). -/
theorem mask_twoRegister (slot : Fin 8) (d n : RegIdx) : (twoRegister slot d n).row.mask = 0xf700 := by
  match slot with
  | 0 | 1 | 2 | 3 | 4 | 5 | 6 | 7 => rfl

/-- The row of the decoded instruction fixes no bit that encoding the instruction loses. -/
theorem encode_decode_and_mask (w : Word) : encode (decode w) &&& (decode w).row.mask = w &&& (decode w).row.mask := by
  by_cases h14 : primaryOpcode w = 14
  · have hmask : (decode w).row.mask = 0xf700 := decode_of_opcode14 h14 ▸ mask_twoRegister _ _ _
    rw [encode_decode_of_opcode14 h14, hmask, BitVec.and_assoc]
    rfl
  · rw [encode_decode_of_ne h14]

/-- Every word has the fixed bits of the row of its decoded instruction (R74). -/
theorem row_decode_admits (w : Word) : (decode w).row.admits w = true :=
  decide_eq_true ((encode_decode_and_mask w).symm.trans (of_decide_eq_true (row_admits_encode (decode w))))

/-- The rows of the opcode table, each from an instruction of it. -/
def opcodeTable : List OpcodeRow :=
  [Instr.stp 0, .addRR 0 0 0, .addImm 0 0, .subRR 0 0 0, .subImm 0 0, .movImm 0 0, .cmpImm 0 0, .ldr 0 0 0, .str 0 0 0, .nan 0 0 0,
    .nor 0 0 0, .lsl 0 0 0, .lsr 0 0 0, .branch0 0 0 0, .branch1 0 0, .and 0 0, .orr 0 0, .xor 0 0, .not 0 0, .ldb 0 0, .stb 0 0,
    .op14Slot6 0 0, .op14Slot7 0 0, .int 0 0].map Instr.row

theorem row_mem_opcodeTable (i : Instr) : i.row ∈ opcodeTable := by
  cases i <;> simp [opcodeTable, Instr.row]

/-- Two rows of the table whose values agree on the bits both fix are the same row. -/
theorem opcodeTable_disjoint :
    ∀ r ∈ opcodeTable, ∀ r' ∈ opcodeTable, r.value &&& r'.mask = r'.value &&& r.mask → r = r' := by decide

/-- No word has the fixed bits of two rows (R72, R73). -/
theorem row_eq_of_admits (hi : i.row.admits w = true) (hj : j.row.admits w = true) : i.row = j.row := by
  have hi : w &&& i.row.mask = i.row.value := of_decide_eq_true hi
  have hj : w &&& j.row.mask = j.row.value := of_decide_eq_true hj
  refine opcodeTable_disjoint _ (row_mem_opcodeTable i) _ (row_mem_opcodeTable j) ?_
  calc i.row.value &&& j.row.mask = w &&& i.row.mask &&& j.row.mask := by rw [hi]
    _ = w &&& j.row.mask &&& i.row.mask := by ac_rfl
    _ = j.row.value &&& i.row.mask := by rw [hj]

end Rows

/-- Settles O34: the fields of a packed word are those packed, and the two bytes of a word join to it. -/
theorem decodeOfEncodeIsIdentity : Obligations.DecodeOfEncodeIsIdentity := by
  intro i
  refine ⟨decode_encode i, ?_⟩
  simp only [encodeBytes, decodeBytes, Machine.joinBytes_split, decode_encode]

/-- Settles O35: a word is its fields packed again, except that an op-14 word is packed with bit 11 clear. -/
theorem encodeOfDecodeLosesOnlyIgnoredBit : Obligations.EncodeOfDecodeLosesOnlyIgnoredBit := by
  intro w
  split
  next h14 => exact encode_decode_of_opcode14 h14
  next h14 => exact encode_decode_of_ne h14

/-- Settles O36: the row of the decoded instruction admits the word, and no two rows admit the same word. -/
theorem everyWordMatchesExactlyOneRow : Obligations.EveryWordMatchesExactlyOneRow := by
  intro w i
  constructor
  · intro hi
    exact row_eq_of_admits hi (row_decode_admits w)
  · intro hrow
    exact hrow ▸ row_decode_admits w

/-- Settles O33: the decoder evaluated at each of the nine words. -/
theorem sampleWordsDecode : Obligations.SampleWordsDecode := by
  unfold Obligations.SampleWordsDecode
  decide

end Sys2Proof
end

section
/-! The assembler (R76): a disassembled line fits its fields, and its word is the encoding of the decoded instruction, or for the unnamed
op-14 slots the word itself. -/

namespace Sys2Proof.Machine

section NumbersOfALine

@[simp] theorem fieldFits_toNat {n : Nat} (x : BitVec n) : fieldFits n x.toNat = true := decide_eq_true x.isLt

@[simp] theorem offsetFits_byteOffset (imm4 : BitVec 4) : offsetFits (byteOffset imm4) = true := by
  have heven : byteOffset imm4 % 2 = 0 := Nat.mul_mod_left _ 2
  have hmax : byteOffset imm4 ≤ 30 := Nat.mul_le_mul_right 2 (Nat.le_of_lt_succ imm4.isLt)
  exact Bool.and_eq_true_iff.mpr ⟨decide_eq_true heven, decide_eq_true hmax⟩

@[simp] theorem shiftFits_shiftAmount (imm4 : BitVec 4) : shiftFits (shiftAmount imm4) = true := by
  have hmin : 1 ≤ shiftAmount imm4 := Nat.succ_pos _
  have hmax : shiftAmount imm4 ≤ 16 := imm4.isLt
  exact Bool.and_eq_true_iff.mpr ⟨decide_eq_true hmin, decide_eq_true hmax⟩

@[simp] theorem byteOffset_half (imm4 : BitVec 4) : byteOffset imm4 / 2 = imm4.toNat :=
  Nat.mul_div_cancel _ Nat.two_pos

@[simp] theorem shiftAmount_pred (imm4 : BitVec 4) : shiftAmount imm4 - 1 = imm4.toNat := rfl

end NumbersOfALine

section Disassembly
variable {w : Word}

/-- Every number the disassembler writes fits its field. -/
theorem wellFormed_disassemble (w : Word) : (disassemble w).wellFormed = true := by
  unfold disassemble
  split <;> simp [Asm.wellFormed]

/-- The line of an instruction the assembler has a mnemonic for encodes the instruction. -/
theorem toWord_disassemble_of_named (h : ∀ slot, Instr.slot (decode w) = some slot → slot < 6) :
    (disassemble w).toWord = encode (decode w) := by
  cases hdec : decode w
  case op14Slot6 => exact absurd (h 6 (congrArg Instr.slot hdec)) (by decide)
  case op14Slot7 => exact absurd (h 7 (congrArg Instr.slot hdec)) (by decide)
  all_goals simp [disassemble, hdec, Asm.toWord]

/-- The line of an op-14 word of the unnamed slots is the word. -/
theorem disassemble_of_slot {slot : Fin 8} (h : Instr.slot (decode w) = some slot) (hslot : 6 ≤ slot) : disassemble w = .word w := by
  obtain ⟨d, n, hdec⟩ := eq_twoRegister_of_slot h
  obtain rfl | rfl : slot = 6 ∨ slot = 7 := by omega
  · simp only [disassemble, hdec, twoRegister]
  · simp only [disassemble, hdec, twoRegister]

/-- The slot of an op-14 word's instruction is the word's slot field (R69). -/
theorem slot_decode_of_opcode14 (h14 : primaryOpcode w = 14) : Instr.slot (decode w) = some (slotField w) := by
  rw [decode_of_opcode14 h14]
  match slotField w with
  | 0 | 1 | 2 | 3 | 4 | 5 | 6 | 7 => rfl

/-- Only op-14 words decode to an instruction with a slot. -/
theorem slot_decode_of_ne (h14 : primaryOpcode w ≠ 14) : Instr.slot (decode w) = none := by
  cases hslot : Instr.slot (decode w) with
  | none => rfl
  | some slot =>
    obtain ⟨d, n, hdec⟩ := eq_twoRegister_of_slot hslot
    have hw : w = packTwo (BitVec.ofFin slot) d n := by rw [← encode_twoRegister, ← hdec, encode_decode_of_ne h14]
    exact absurd (congrArg BitVec.toFin (hw ▸ (fields_packTwo (BitVec.ofFin slot) d n).1)) h14

/-- The word of a disassembled line. -/
theorem toWord_disassemble (w : Word) :
    (disassemble w).toWord = if primaryOpcode w = 14 ∧ slotField w < 6 then w &&& 0xf7ff else w := by
  by_cases h14 : primaryOpcode w = 14
  · have hslot := slot_decode_of_opcode14 h14
    by_cases h6 : slotField w < 6
    · rw [if_pos ⟨h14, h6⟩, ← encode_decode_of_opcode14 h14]
      exact toWord_disassemble_of_named fun slot h => Option.some.inj (hslot.symm.trans h) ▸ h6
    · rw [if_neg fun h => h6 h.2, disassemble_of_slot hslot (Fin.not_lt.mp h6)]
      rfl
  · rw [if_neg fun h => h14 h.1, toWord_disassemble_of_named fun slot h => ?_, encode_decode_of_ne h14]
    simp [slot_decode_of_ne h14] at h

end Disassembly

/-- Settles O37: the disassembled line fits its fields, so the assembler gives its word. -/
theorem assembleOfDisassembleIsWord : Obligations.AssembleOfDisassembleIsWord := by
  intro w
  rw [assemble, if_pos (wellFormed_disassemble w), toWord_disassemble]

end Sys2Proof.Machine
end

section
/-! The trace is output only (R32, R91, R102). Which events an instruction emits is a function of the instruction and of the registers and
CIR it runs on; run with any other trace, it does the same and appends the same events to that trace. -/

namespace Sys2Proof.Machine

/-- An outcome with the trace `tr` in its next state, where it has one. -/
def retrace (tr : List Event) : Host.Outcome State Fault Refusal → Host.Outcome State Fault Refusal
  | .next t => .next (t.withTrace tr)
  | .fault f => .fault f
  | .refused r => .refused r

/-- The events an instruction emits when it completes (R91): one for STP, CMP (imm) and the stubs, and none for every other. -/
def emitted (s : State) : Instr → List Event
  | .stp imm12 => [.stop imm12]
  | .cmpImm n imm8 => [.compare n (s.reg n) imm8]
  | .branch0 _ _ _ => [.unimplemented .branch0 s.cir]
  | .branch1 _ _ => [.unimplemented .branch1 s.cir]
  | .int _ _ => [.unimplemented .int s.cir]
  | _ => []

section TraceOutput
variable (s : State) (tr : List Event) {t : State} {i : Instr} {f : Fault}

/-- An instruction emits at most one event (R91). -/
theorem length_emitted_le_one (i : Instr) : (emitted s i).length ≤ 1 := by
  cases i <;> simp [emitted]

/-- The instructions of primary opcode 14 emit no event. -/
theorem emitted_twoRegister (slot : Fin 8) (d n : RegIdx) : emitted s (twoRegister slot d n) = [] := by
  fin_cases slot <;> rfl

/-- STP alone emits a Stop (R100). -/
theorem any_isStop_emitted : (emitted s i).any Event.isStop = true ↔ ∃ code, i = .stp code := by
  cases i <;> simp [emitted, Event.isStop]

/-- Loading into a register leaves whatever trace there is. -/
theorem loadInto_withTrace (d : RegIdx) (y : Except Fault Word) :
    loadInto (s.withTrace tr) d y = retrace tr (loadInto s d y) := by
  cases y <;> rfl

/-- Writing a byte leaves whatever trace there is. -/
theorem wr8_withTrace (a : Word) (b : Byte) :
    outcomeOf (wr8 (s.withTrace tr) a b) = retrace tr (outcomeOf (wr8 s a b)) := by
  rcases Nat.lt_or_ge a.toNat s.params.memSize with h | h
  · rw [wr8_of_lt h, wr8_of_lt (s := s.withTrace tr) h]
    rfl
  · rw [wr8_of_ge h, wr8_of_ge (s := s.withTrace tr) h]
    rfl

/-- Writing a word leaves whatever trace there is. -/
theorem writeWord_withTrace (a v : Word) :
    outcomeOf (writeWord (s.withTrace tr) a v) = retrace tr (outcomeOf (writeWord s a v)) := by
  cases hw : writeWord s a v with
  | ok t =>
    obtain ⟨a', h', ha, ha', rfl⟩ := writeWord_ok hw
    rw [writeWord_of_writable (s := s.withTrace tr) ha h' ha']
    rfl
  | error f =>
    have hstop : WordStop s a f := writeWord_error_iff.mp hw
    rw [(writeWord_error_iff (s := s.withTrace tr)).mpr hstop]
    rfl

/-- The word LDR loads does not depend on the trace. -/
theorem loadedWord_withTrace (a : RegIdx) (imm4 : BitVec 4) : loadedWord (s.withTrace tr) a imm4 = loadedWord s a imm4 := by
  simp only [loadedWord, effectiveAddress_congr (params_withTrace s tr) (reg_withTrace s a tr),
    readWord_congr (params_withTrace s tr) (mem_withTrace s tr)]

/-- STR's store leaves whatever trace there is. -/
theorem storedWord_withTrace (n a : RegIdx) (imm4 : BitVec 4) :
    outcomeOf (storedWord (s.withTrace tr) n a imm4) = retrace tr (outcomeOf (storedWord s n a imm4)) := by
  simp only [storedWord, effectiveAddress_congr (params_withTrace s tr) (reg_withTrace s a tr)]
  cases effectiveAddress s a imm4 with
  | error f => rfl
  | ok ea => exact writeWord_withTrace s tr ea (s.reg n)

/-- A stub appends its event to whatever trace there is (R140, R141, R170). -/
theorem stubOutcome_withTrace (kind : StubKind) :
    stubOutcome kind (s.withTrace tr) = retrace (tr ++ [.unimplemented kind s.cir]) (stubOutcome kind s) := by
  simp only [stubOutcome, params_withTrace]
  cases s.params.stubPolicy <;> rfl

/-- An op-14 slot leaves whatever trace there is. -/
theorem op14Dispatch_withTrace (slot : Fin 8) (d n : RegIdx) :
    op14Dispatch slot d n (s.withTrace tr) = retrace tr (op14Dispatch slot d n s) := by
  simp only [op14Dispatch, params_withTrace]
  cases s.params.op14Map[slot] with
  | and | orr | xor | not => rfl
  | ldb => exact loadInto_withTrace s tr d (loadedByte s n)
  | stb => exact wr8_withTrace s tr (s.reg n) (lowByte (s.reg d))
  | unlisted =>
    simp only [op14UnlistedOp, params_withTrace]
    cases s.params.op14Unlisted <;> rfl

/-- LDR leaves whatever trace there is. -/
theorem execLdr_withTrace (d a : RegIdx) (imm4 : BitVec 4) :
    execLdr d a imm4 (s.withTrace tr) = retrace tr (execLdr d a imm4 s) := by
  rw [execLdr, loadedWord_withTrace]
  exact loadInto_withTrace s tr d (loadedWord s a imm4)

/-- An instruction that emits no event and leaves whatever trace there is. -/
theorem exec_withTrace_of_silent (hi : emitted s i = []) (h : exec i (s.withTrace tr) = retrace tr (exec i s)) :
    exec i (s.withTrace tr) = retrace (tr ++ emitted s i) (exec i s) := by
  rw [hi, List.append_nil, h]

/-- The execute phase run with another trace: the same outcome, with the instruction's events appended to that trace (R91, R102). -/
theorem exec_withTrace (i : Instr) : exec i (s.withTrace tr) = retrace (tr ++ emitted s i) (exec i s) := by
  cases hs : Instr.slot i with
  | some slot =>
    obtain ⟨d, n, rfl⟩ := eq_twoRegister_of_slot hs
    refine exec_withTrace_of_silent s tr (emitted_twoRegister s slot d n) ?_
    rw [exec_twoRegister, exec_twoRegister]
    exact op14Dispatch_withTrace s tr slot d n
  | none =>
    cases i with
    | stp | cmpImm => rfl
    | branch0 | branch1 | int => exact stubOutcome_withTrace s tr _
    | addRR | addImm | subRR | subImm | movImm | nan | nor | lsl | lsr => exact exec_withTrace_of_silent s tr rfl rfl
    | ldr d a imm4 => exact exec_withTrace_of_silent s tr rfl (execLdr_withTrace s tr d a imm4)
    | str n a imm4 => exact exec_withTrace_of_silent s tr rfl (storedWord_withTrace s tr n a imm4)
    | and | orr | xor | not | ldb | stb | op14Slot6 | op14Slot7 => cases hs

variable {s}

/-- An instruction that completes appends its events, and nothing else, to the trace. -/
theorem trace_exec (h : exec i s = .next t) : t.trace = s.trace ++ emitted s i := by
  have hself : exec i s = retrace (s.trace ++ emitted s i) (exec i s) := exec_withTrace s s.trace i
  rw [h] at hself
  exact congrArg State.trace (Host.Outcome.next.inj hself)

/-- The step of a running state whose word can be read, with another trace: the events are those of the word's instruction. -/
theorem step_withTrace {w : Word} (hs : s.status = .running) (hw : readWord s s.pc = .ok w) :
    step (s.withTrace tr) = retrace (tr ++ emitted (fetched s w) (decode w)) (step s) := by
  have hw' : readWord (s.withTrace tr) (s.withTrace tr).pc = .ok w :=
    (readWord_congr (params_withTrace s tr) (mem_withTrace s tr) s.pc).trans hw
  calc step (s.withTrace tr)
    _ = exec (decode w) ((fetched s w).withTrace tr) := step_of_readWord (s := s.withTrace tr) hs hw'
    _ = retrace (tr ++ emitted (fetched s w) (decode w)) (exec (decode w) (fetched s w)) := exec_withTrace _ tr _
    _ = retrace (tr ++ emitted (fetched s w) (decode w)) (step s) := by rw [step_of_readWord hs hw]

/-- A fetch that stops does so whatever the trace. -/
theorem step_withTrace_of_readWord_error (hs : s.status = .running) (hr : readWord s s.pc = .error f) :
    step (s.withTrace tr) = step s := by
  have hr' : readWord (s.withTrace tr) (s.withTrace tr).pc = .error f :=
    (readWord_congr (params_withTrace s tr) (mem_withTrace s tr) s.pc).trans hr
  rw [step_of_running hs, step_of_running (s := s.withTrace tr) hs]
  simp only [cycle, fetch_of_readWord_error hr, fetch_of_readWord_error hr']

/-- A step that stops does so with the same reason whatever the trace. -/
theorem step_withTrace_of_stop (h : ∀ t, step s ≠ .next t) : step (s.withTrace tr) = step s := by
  cases hs : s.status with
  | running =>
    cases hr : readWord s s.pc with
    | error f => exact step_withTrace_of_readWord_error tr hs hr
    | ok w =>
      rw [step_withTrace tr hs hr]
      cases hstep : step s with
      | next t => exact absurd hstep (h t)
      | fault f => rfl
      | refused r => rfl
  | faulted f => simp only [step, cycleIfRunning, status_withTrace, hs]
  | refused r => simp only [step, cycleIfRunning, status_withTrace, hs]

end TraceOutput

/-- Settles O44: a step to a next state appends the events of the fetched instruction, which do not depend on the trace, to whatever trace
it finds; and no stop reads the trace. -/
theorem traceIsNeverRead : Obligations.TraceIsNeverRead := by
  refine ⟨fun s t h => ?_, fun s f tr h => ?_, fun s r tr h => ?_⟩
  · obtain ⟨hs, w, hw, hexec⟩ := step_next h
    refine ⟨emitted (fetched s w) (decode w), trace_exec hexec, length_emitted_le_one _ _, fun tr => ?_⟩
    rw [step_withTrace tr hs hw, h]
    rfl
  · rw [step_withTrace_of_stop tr (by simp [h]), h]
  · rw [step_withTrace_of_stop tr (by simp [h]), h]

end Sys2Proof.Machine
end

section
/-! Fetch, step and the host's requests (R80 to R94, R200 to R202). The request FETCH followed by the request EXECUTE marks the outcome of
the step, and that is what both the equivalence of the two and the run loop turn on. -/

namespace Sys2Proof.Machine

section Fetching
variable {s : State} {a' : Word} {f : Fault}

/-- The word at the PC, where its two bytes can be read (R80). -/
theorem readWord_pc_of_wordAt (h : WordAt s s.pc a') :
    readWord s s.pc = .ok (joinBytes (Memory.read s.mem s.pc.toNat) (Memory.read s.mem a'.toNat)) := by
  obtain ⟨hlo, hnext, hhi⟩ := h
  exact readWord_of_readable hlo hnext hhi

/-- A fetch writes no general register but R15 (R82). -/
theorem registersKeptBut_fetched (s : State) (w : Word) : RegistersKeptBut 15 s (fetched s w) :=
  fun r hr => (reg_fetched w r).trans (if_neg hr)

/-- A fetch stops exactly where the word at the PC cannot be read. -/
theorem fetch_error_iff : fetch s = .error f ↔ readWord s s.pc = .error f :=
  ⟨fetch_error, fetch_of_readWord_error⟩

end Fetching

section Requests
variable {s t : State} {w : Word} {f : Fault}

/-- FETCH where the word at the PC can be read. -/
theorem requestFetch_of_readWord (hs : s.status = .running) (hw : readWord s s.pc = .ok w) : requestFetch s = fetched s w := by
  simp only [requestFetch, hs, fetch_of_readWord hw, outcomeOf, markOutcome]

/-- FETCH where it cannot: MAR is written and the mark set (R183). -/
theorem requestFetch_of_error (hs : s.status = .running) (hr : readWord s s.pc = .error f) :
    requestFetch s = (fetchAtStop s).setStatus (.faulted f) := by
  simp only [requestFetch, hs, fetch_of_readWord_error hr, outcomeOf, markOutcome]

/-- A FETCH that leaves the state running has read the word at the PC. -/
theorem requestFetch_running (hs : s.status = .running) (ht : (requestFetch s).status = .running) :
    ∃ w, readWord s s.pc = .ok w ∧ requestFetch s = fetched s w := by
  cases hr : readWord s s.pc with
  | ok w => exact ⟨w, rfl, requestFetch_of_readWord hs hr⟩
  | error f =>
    rw [requestFetch_of_error hs hr, status_setStatus] at ht
    cases ht

/-- EXECUTE in a running state marks the outcome of the execute phase. -/
theorem requestExecute_of_running (hs : s.status = .running) :
    requestExecute s = markOutcome (executeAtStop s) (execute s) := by
  simp only [requestExecute, hs]

/-- EXECUTE of an instruction that completes. -/
theorem requestExecute_of_next (hs : s.status = .running) (h : exec (decode s.cir) s = .next t) : requestExecute s = t := by
  rw [requestExecute_of_running hs, execute, h, markOutcome]

/-- A marked state answers EXECUTE with itself (R181). -/
theorem requestExecute_of_ne_running (hs : s.status ≠ .running) : requestExecute s = s := by
  unfold requestExecute
  split
  · exact absurd ‹_› hs
  · rfl

/-- A marked state answers FETCH with itself (R181). -/
theorem requestFetch_of_ne_running (hs : s.status ≠ .running) : requestFetch s = s := by
  unfold requestFetch
  split
  · exact absurd ‹_› hs
  · rfl

/-- FETCH then EXECUTE marks the outcome of the step (R89, R181). -/
theorem requests_eq_markOutcome_step (hs : s.status = .running) :
    ∃ atStop, requestExecute (requestFetch s) = markOutcome atStop (step s) := by
  cases hr : readWord s s.pc with
  | ok w =>
    refine ⟨executeAtStop (fetched s w), ?_⟩
    rw [requestFetch_of_readWord hs hr, requestExecute_of_running (s := fetched s w) hs, step_of_readWord hs hr, execute, cir_fetched]
  | error f =>
    refine ⟨fetchAtStop s, ?_⟩
    have hmarked : ((fetchAtStop s).setStatus (.faulted f)).status ≠ .running := nofun
    rw [requestFetch_of_error hs hr, requestExecute_of_ne_running hmarked, step_of_running hs]
    simp only [cycle, fetch_of_readWord_error hr, markOutcome]

/-- Before a stop the execute phase has at most stored a byte: STR's low one (R86, R183). -/
theorem executeAtStop_eq (s : State) :
    executeAtStop s = s ∨ ∃ m, Stored s.params.memSize s.mem m ∧ executeAtStop s = s.setMem m := by
  unfold executeAtStop
  split
  · unfold storedWordAtStop
    split
    · exact .inl rfl
    · unfold writeWordAtStop
      split
      · exact .inl rfl
      · obtain ⟨hlt, rfl⟩ := wr8_ok ‹_›
        exact .inr ⟨_, .byte _ _ hlt, rfl⟩
  · exact .inl rfl

/-- A property the stopped state and every completed state have, and the mark does not touch, is one of the marked outcome. -/
theorem markOutcome_induction {P : State → Prop} {atStop : State} {o : Host.Outcome State Fault Refusal}
    (hstop : ∀ st, P (atStop.setStatus st)) (hnext : ∀ t, o = .next t → P t) : P (markOutcome atStop o) := by
  cases o with
  | next t => exact hnext t rfl
  | fault f => exact hstop _
  | refused r => exact hstop _

/-- EXECUTE keeps CIR and MAR, whether it completes, stops or is not taken (R84, R85). -/
theorem requestExecute_keeps_cir_mar (s : State) : (requestExecute s).cir = s.cir ∧ (requestExecute s).mar = s.mar := by
  by_cases hs : s.status = .running
  · rw [requestExecute_of_running hs]
    refine markOutcome_induction (P := fun t => t.cir = s.cir ∧ t.mar = s.mar) (fun st => ?_) (fun t h => ?_)
    · obtain h | ⟨m, -, h⟩ := executeAtStop_eq s <;> rw [h] <;> exact ⟨rfl, rfl⟩
    · obtain ⟨hmar, hcir, -⟩ := exec_keeps_control h
      exact ⟨hcir, hmar⟩
  · rw [requestExecute_of_ne_running hs]
    exact ⟨rfl, rfl⟩

end Requests

section HostInvariant
variable {s : State} {a : Nat}

/-- The request FETCH keeps the invariant, also where it stops. -/
theorem State.Inv.requestFetch (h : s.Inv) : (requestFetch s).Inv := by
  by_cases hs : s.status = .running
  · cases hr : readWord s s.pc with
    | ok w =>
      rw [requestFetch_of_readWord hs hr]
      exact h.fetched w
    | error f =>
      rw [requestFetch_of_error hs hr]
      exact h.congr rfl rfl
  · rwa [requestFetch_of_ne_running hs]

/-- What the execute phase has stored when it stops keeps the invariant. -/
theorem State.Inv.executeAtStop (h : s.Inv) : (executeAtStop s).Inv := by
  obtain heq | ⟨m, hm, heq⟩ := executeAtStop_eq s <;> rw [heq]
  · exact h
  · exact h.setMem hm

/-- The request EXECUTE keeps the invariant, also where it stops. -/
theorem State.Inv.requestExecute (h : s.Inv) : (requestExecute s).Inv := by
  by_cases hs : s.status = .running
  · rw [requestExecute_of_running hs]
    exact markOutcome_induction (fun st => h.executeAtStop.congr rfl rfl) (fun t => exec_keeps_inv h)
  · rwa [requestExecute_of_ne_running hs]

/-- A construction over at most MEM_SIZE bytes has the invariant (R57, R200). -/
theorem inv_construct_load {p : Params} (hp : p.wellFormed = true) {bytes : List Byte} (hlen : bytes.length ≤ p.memSize) :
    (State.construct p (Memory.load [] 0 bytes)).Inv := by
  obtain ⟨-, hwf, hwithin⟩ := inv_construct_nil hp
  exact ⟨hp, Memory.wf_load hwf 0 bytes, Memory.within_load hwithin 0 bytes ((Nat.zero_add _).trans_le hlen)⟩

/-- Every request keeps the invariant. -/
theorem respond_keeps_inv (q : Request) (h : s.Inv) : (respond q s).1.Inv := by
  cases q with
  | construct bytes => exact inv_construct_load h.1 (List.length_take_le _ _)
  | fetch => exact h.requestFetch
  | execute => exact h.requestExecute
  | dump => exact h

/-- A host write keeps the invariant: it writes a byte below MEM_SIZE or none. -/
theorem hostWrite_keeps_inv (a : Nat) (b : Byte) (h : s.Inv) : (hostWrite s a b).Inv := by
  rcases Nat.lt_or_ge a s.params.memSize with ha | ha
  · rw [hostWrite_of_lt b ha]
    exact h.setMem (.byte a b ha)
  · rwa [hostWrite_of_ge b ha]

/-- A host write below MEM_SIZE sets its byte and changes nothing else (R202). -/
theorem hostWrite_sets_byte_alone (b : Byte) (hm : Memory.wf s.mem) (ha : a < s.params.memSize) :
    Memory.read (hostWrite s a b).mem a = b ∧ StoresOnlyAt [a] s (hostWrite s a b) := by
  rw [hostWrite_of_lt b ha]
  refine ⟨Memory.read_write_same hm.1 a b, fun r => reg_setMem s r _, fun k hk => ?_, rfl, rfl, rfl, rfl, rfl⟩
  exact Memory.read_write_ne s.mem b (List.ne_of_not_mem_cons hk)

/-- Byte `k` of a Memory loaded with bytes from address 0 is the k-th byte handed over, if there is one (R57). -/
theorem read_load_zero (bytes : List Byte) (k : Nat) :
    Memory.read (Memory.load [] 0 bytes) k = bytes[k]?.getD Memory.unlisted := by
  rw [Memory.read_load ⟨.nil, List.forall_mem_nil _⟩, if_pos k.zero_le, Nat.sub_zero]
  rfl

end HostInvariant

section RunLoop
variable {s t : State} {i : Instr}

/-- An execute phase that completes emitted a Stop exactly when it ran STP (R89, R100). -/
theorem emittedStop_exec (h : exec i s = .next t) : emittedStop s t = true ↔ ∃ code, i = .stp code := by
  rw [emittedStop, trace_exec h, List.drop_left, any_isStop_emitted]

/-- A step to a next state ran, in the state the fetch left, the word that CIR holds after it (R84, R89). -/
theorem exec_fetched_of_step_next (h : step s = .next t) :
    s.status = .running ∧ readWord s s.pc = .ok t.cir ∧ exec (decode t.cir) (fetched s t.cir) = .next t := by
  obtain ⟨hs, w, hw, hexec⟩ := step_next h
  obtain ⟨-, hcir, -⟩ := exec_keeps_control hexec
  obtain rfl : t.cir = w := hcir
  exact ⟨hs, hw, hexec⟩

/-- The loop over a step that completes: it ends where the step emitted a Stop and HALT_ON_STOP is set, and goes on elsewhere (R89). -/
theorem run_of_step_next (k : Nat) (h : step s = .next t) :
    run (k + 1) s = if s.params.haltOnStop && emittedStop (fetched s t.cir) t then (.stopped, t) else run k t := by
  obtain ⟨hs, hw, hexec⟩ := exec_fetched_of_step_next h
  obtain ⟨hstatus, hparams⟩ := step_keeps_status_params h
  have hexecute : requestExecute (fetched s t.cir) = t := requestExecute_of_next (s := fetched s t.cir) hs hexec
  simp only [run, requestFetch_of_readWord hs hw, hexecute, status_fetched, hstatus, hparams, hs, ne_eq, not_true_eq_false, if_false]

/-- The loop where the two requests leave a mark: it ends in the state they leave (R89, R181). -/
theorem run_of_marked {st : Status} (k : Nat) (h : (requestExecute (requestFetch s)).status = st) (hst : st ≠ .running) :
    run (k + 1) s = (.marked, requestExecute (requestFetch s)) := by
  rw [← h] at hst
  by_cases hfetch : (requestFetch s).status = .running
  · simp only [run, if_neg (not_not_intro hfetch), if_pos hst]
  · simp only [run, if_pos hfetch, requestExecute_of_ne_running hfetch]

/-- The loop goes on after a step of an instruction other than STP, or with HALT_ON_STOP off (R89). -/
theorem run_goes_on (k : Nat) (h : step s = .next t) (hgo : s.params.haltOnStop = false ∨ ∀ code, decode t.cir ≠ .stp code) :
    run (k + 1) s = run k t := by
  obtain ⟨-, -, hexec⟩ := exec_fetched_of_step_next h
  rw [run_of_step_next k h, if_neg]
  intro hstop
  obtain ⟨hhalt, hemitted⟩ := Bool.and_eq_true_iff.mp hstop
  obtain ⟨code, hcode⟩ := (emittedStop_exec hexec).mp hemitted
  obtain hoff | hother := hgo
  · exact Bool.false_ne_true (hoff.symm.trans hhalt)
  · exact hother code hcode

end RunLoop

/-- Settles O39: the fetch stops as the read of the word at the PC stops. -/
theorem fetchStopsInOrder : Obligations.FetchStopsInOrder :=
  fun _ _ => fetch_error_iff.trans readWord_error_iff

/-- Settles O42: none of the effects of the execute phase touches the control state. -/
theorem executeKeepsControlState : Obligations.ExecuteKeepsControlState := fun _ _ _ => exec_keeps_control

/-- Settles O50: each request and each host write stores below MEM_SIZE or not at all, and the Memory of a construction is the bytes handed
over, cut at MEM_SIZE. -/
theorem hostRequestsKeepInvariant : Obligations.HostRequestsKeepInvariant := by
  refine ⟨fun q _ => respond_keeps_inv q, fun _ a b => hostWrite_keeps_inv a b, fun _ _ b => hostWrite_sets_byte_alone b,
    fun _ _ b => hostWrite_of_ge b, fun bytes s => ⟨_, rfl, fun k b hk hb => ?_, fun k hk => ?_⟩⟩
  · rw [read_load_zero, List.getElem?_take_of_lt hk, hb, Option.getD_some]
  · have hnone : (bytes.take s.params.memSize)[k]? = none := by
      rw [List.getElem?_eq_none_iff, List.length_take]
      omega
    rw [read_load_zero, hnone, Option.getD_none]

/-- Settles O53: FETCH then EXECUTE marks the outcome of the step, and a step that completes keeps the mark. -/
theorem stepIsFetchThenExecuteRequest : Obligations.StepIsFetchThenExecuteRequest := by
  intro s hs
  obtain ⟨atStop, hreq⟩ := requests_eq_markOutcome_step hs
  refine ⟨fun t h => ⟨?_, (step_keeps_status_params h).1.trans hs⟩, fun f h => ?_, fun r h => ?_⟩ <;> rw [hreq, h] <;> rfl

/-- Settles O54: EXECUTE keeps CIR, so the second one runs the same ADD on the sum of the first. -/
theorem executeTwiceRunsSameWordTwice : Obligations.ExecuteTwiceRunsSameWordTwice := by
  refine ⟨requestExecute_keeps_cir_mar, fun s d imm8 hs hi => ?_⟩
  have hadd : ∀ t : State, t.status = .running → t.cir = s.cir → requestExecute t = t.setReg d (t.reg d + zext16 imm8) := by
    intro t ht hcir
    refine requestExecute_of_next ht ?_
    rw [hcir, hi]
    rfl
  rw [hadd s hs rfl, hadd (s.setReg _ _) hs rfl, reg_setReg_same, reg_setReg_same, BitVec.toNat_add, BitVec.toNat_add, toNat_zext16]
  omega

/-- Settles O55: each FETCH that succeeds is a fetched word, and the second reads at the PC the first left, over the same Memory. -/
theorem fetchTwiceLosesFirstWord : Obligations.FetchTwiceLosesFirstWord := by
  intro s hs h1 h2
  obtain ⟨w, -, heq⟩ := requestFetch_running hs h1
  obtain ⟨w', hw', heq'⟩ := requestFetch_running h1 h2
  rw [heq']
  rw [heq, readWord_congr (params_fetched w) (mem_fetched w), pc_fetched] at hw'
  refine ⟨?_, ?_, hw'⟩
  · rw [pc_fetched, heq, pc_fetched, BitVec.add_assoc]
    rfl
  · rw [mar_fetched, heq, pc_fetched]

/-- Settles O58: a step that completes has emitted a Stop exactly when it ran STP, and a step that stops is marked by the two requests. -/
theorem runLoopFollowsSteps : Obligations.RunLoopFollowsSteps := by
  refine ⟨fun _ => rfl, fun k s t code h hcode hhalt => ?_, fun k s t h hoff => run_goes_on k h (.inl hoff),
    fun k s t h hother => run_goes_on k h (.inr hother), fun k s f hs h => ?_, fun k s r hs h => ?_⟩
  · obtain ⟨-, -, hexec⟩ := exec_fetched_of_step_next h
    rw [run_of_step_next k h, hhalt, (emittedStop_exec hexec).mpr ⟨code, hcode⟩]
    rfl
  · obtain ⟨-, hfault, -⟩ := stepIsFetchThenExecuteRequest s hs
    rw [run_of_marked k (hfault f h) nofun]
    exact ⟨rfl, hfault f h⟩
  · obtain ⟨-, -, hrefused⟩ := stepIsFetchThenExecuteRequest s hs
    rw [run_of_marked k (hrefused r h) nofun]
    exact ⟨rfl, hrefused r h⟩

/-- Settles O38: the word at the PC is read, and the fetched state is the old one but for MAR, CIR and R15. -/
theorem fetchReadsWordAndAdvancesPc : Obligations.FetchReadsWordAndAdvancesPc := by
  intro s a' h
  refine ⟨_, fetch_of_readWord (readWord_pc_of_wordAt h), rfl, toNat_joinBytes _ _, ?_, registersKeptBut_fetched s _,
    fun _ => rfl, rfl, rfl, rfl⟩
  rw [pc_fetched]
  exact BitVec.toNat_add s.pc 2

/-- Settles O40: the fetched word is the one the two bytes make, and it decodes to the instruction they decode to. -/
theorem stepRunsDecodedInstruction : Obligations.StepRunsDecodedInstruction := by
  intro s a' i hs h hi
  obtain rfl : decode (joinBytes (Memory.read s.mem s.pc.toNat) (Memory.read s.mem a'.toNat)) = i :=
    congrArg Prod.fst (Except.ok.inj hi)
  exact ⟨_, step_of_readWord hs (readWord_pc_of_wordAt h), rfl, rfl, pc_fetched _, registersKeptBut_fetched s _, rfl, rfl, rfl, rfl⟩

/-- Settles O56: CIR is zero after construction, and the zero word is STP #0 (R62, R100). -/
theorem executeBeforeFetchEmitsStopZero : Obligations.ExecuteBeforeFetchEmitsStopZero := by
  intro p m
  have hzero : decode 0 = .stp 0 := by decide
  have hstp : exec (decode (State.construct p m).cir) (State.construct p m) = .next ((State.construct p m).emit (.stop 0)) :=
    congrArg (exec · (State.construct p m)) hzero
  rw [requestExecute_of_next rfl hstp]
  exact emit_emitsOnly (.stop 0)

/-- Settles O57: the model run on R94's two bytes. -/
theorem workedExampleCycle : Obligations.WorkedExampleCycle :=
  ⟨_, rfl, rfl, rfl, rfl, rfl, by decide, rfl⟩

/-- Settles O60: the record is made of the state's own parts (R92). -/
theorem dumpReportsRegistersAndKeepsState : Obligations.DumpReportsRegistersAndKeepsState :=
  fun s => ⟨rfl, s.dump, rfl, rfl, rfl, fun _ => rfl⟩

end Sys2Proof.Machine
end

section
/-! The diagnostic instructions STP and CMP (imm) (R100, R101, R102): the primary opcode decides the instruction, and its execute phase
appends one event to the trace and does nothing else. -/

namespace Sys2Proof

section DiagnosticDecode
variable {w v : Word}

/-- The mask of R100 and R101 keeps the primary opcode. -/
theorem primaryOpcode_of_mask_f000 (h : w &&& 0xf000 = v) : primaryOpcode w = primaryOpcode v :=
  primaryOpcode_of_mask rfl h

/-- Every op-0 word is the STP of its code (R63, R100). -/
theorem decode_of_opcode0 (h : primaryOpcode w = 0) : decode w = .stp (w.extractLsb' 0 12) := by simp only [decode, h]

/-- Every op-6 word is the CMP (imm) of its fields (R101). -/
theorem decode_of_opcode6 (h : primaryOpcode w = 6) : decode w = .cmpImm (regField w 8) (w.extractLsb' 0 8) := by
  simp only [decode, h]

end DiagnosticDecode

end Sys2Proof

namespace Sys2Proof.Machine

section DiagnosticExec
variable (s : State)

/-- STP completes with its Stop event (R100). -/
theorem exec_stp (imm12 : BitVec 12) : exec (.stp imm12) s = .next (s.emit (.stop imm12)) := rfl

/-- CMP (imm) completes with its Compare event, whose value is the register's before the phase (R101). -/
theorem exec_cmpImm (n : RegIdx) (imm8 : BitVec 8) :
    exec (.cmpImm n imm8) s = .next (s.emit (.compare n (s.reg n) imm8)) := rfl

end DiagnosticExec

/-- Settles O6: the mask leaves opcode 0, which decodes to STP, and STP emits its event alone. -/
theorem stpEmitsStopAlone : Obligations.StpEmitsStopAlone := by
  constructor
  · intro w hw
    exact decode_of_opcode0 (primaryOpcode_of_mask_f000 hw)
  · intro imm12 s
    exact ⟨_, exec_stp s imm12, emit_emitsOnly _⟩

/-- Settles O7: the mask leaves opcode 6, which decodes to CMP (imm), and CMP (imm) emits its event alone. -/
theorem cmpEmitsCompareAlone : Obligations.CmpEmitsCompareAlone := by
  constructor
  · intro w hw
    exact decode_of_opcode6 (primaryOpcode_of_mask_f000 hw)
  · intro n imm8 s
    exact ⟨_, exec_cmpImm s n imm8, emit_emitsOnly _⟩

end Sys2Proof.Machine
end

section
/-! Arithmetic and move: ADD, SUB and MOV (R110 to R115). The primary opcode decides the instruction, and its execute phase writes one
register: 16-bit addition and subtraction are the results over the integers taken mod 2^16 (R115), and an imm8 enters as its value (R71). -/

namespace Sys2Proof

section ArithmeticDecode
variable {w : Word}

/-- Every op-1 word is the ADD (reg,reg) of its fields (R110). -/
theorem decode_of_opcode1 (h : primaryOpcode w = 1) :
    decode w = .addRR (regField w 8) (regField w 4) (regField w 0) := by simp only [decode, h]

/-- Every op-2 word is the ADD (imm) of its fields (R111). -/
theorem decode_of_opcode2 (h : primaryOpcode w = 2) : decode w = .addImm (regField w 8) (w.extractLsb' 0 8) := by
  simp only [decode, h]

/-- Every op-3 word is the SUB (reg,reg) of its fields (R112). -/
theorem decode_of_opcode3 (h : primaryOpcode w = 3) :
    decode w = .subRR (regField w 8) (regField w 4) (regField w 0) := by simp only [decode, h]

/-- Every op-4 word is the SUB (imm) of its fields (R113). -/
theorem decode_of_opcode4 (h : primaryOpcode w = 4) : decode w = .subImm (regField w 8) (w.extractLsb' 0 8) := by
  simp only [decode, h]

/-- Every op-5 word is the MOV (imm) of its fields (R114). -/
theorem decode_of_opcode5 (h : primaryOpcode w = 5) : decode w = .movImm (regField w 8) (w.extractLsb' 0 8) := by
  simp only [decode, h]

end ArithmeticDecode

end Sys2Proof

namespace Sys2Proof.Machine

section ArithmeticExec
variable (s : State) (d n m : RegIdx) (imm8 : BitVec 8)

/-- ADD (reg,reg) completes with the sum of the registers before the phase (R110). -/
theorem exec_addRR : exec (.addRR d n m) s = .next (s.setReg d (s.reg n + s.reg m)) := rfl

/-- ADD (imm) reads its destination as the first source (R111). -/
theorem exec_addImm : exec (.addImm d imm8) s = .next (s.setReg d (s.reg d + zext16 imm8)) := rfl

/-- SUB (reg,reg) has rN as minuend and rM as subtrahend (R112). -/
theorem exec_subRR : exec (.subRR d n m) s = .next (s.setReg d (s.reg n - s.reg m)) := rfl

/-- SUB (imm) reads its destination as the minuend (R113). -/
theorem exec_subImm : exec (.subImm d imm8) s = .next (s.setReg d (s.reg d - zext16 imm8)) := rfl

/-- MOV (imm) reads no register (R114). -/
theorem exec_movImm : exec (.movImm d imm8) s = .next (s.setReg d (zext16 imm8)) := rfl

end ArithmeticExec

/-- The difference of two words is the integer difference mod 2^16, the remainder being the one in 0 to 65535 (R7, R115). -/
theorem toNat_sub_eq_emod (v u : Word) : ((v - u).toNat : Int) = ((v.toNat : Int) - (u.toNat : Int)) % 65536 := by
  have hv := v.isLt
  have hu := u.isLt
  rw [BitVec.toNat_sub]
  omega

/-- Settles O1: the mask leaves opcode 1, and the register written holds the sum of two words. -/
theorem addRegWraps : Obligations.AddRegWraps := by
  constructor
  · intro w hw
    exact decode_of_opcode1 (primaryOpcode_of_mask_f000 hw)
  · intro d n m s
    refine ⟨_, exec_addRR s d n m, ?_, setReg_writesOnly _ _⟩
    rw [reg_setReg_same, BitVec.toNat_add]

/-- Settles O2: the mask leaves opcode 2, and zero extension keeps the value of imm8 in the sum. -/
theorem addImmWraps : Obligations.AddImmWraps := by
  constructor
  · intro w hw
    exact decode_of_opcode2 (primaryOpcode_of_mask_f000 hw)
  · intro d imm8 s
    refine ⟨_, exec_addImm s d imm8, ?_, setReg_writesOnly _ _⟩
    rw [reg_setReg_same, BitVec.toNat_add, toNat_zext16]

/-- Settles O3: the mask leaves opcode 3, and the register written holds the difference of two words. -/
theorem subRegWraps : Obligations.SubRegWraps := by
  constructor
  · intro w hw
    exact decode_of_opcode3 (primaryOpcode_of_mask_f000 hw)
  · intro d n m s
    refine ⟨_, exec_subRR s d n m, ?_, setReg_writesOnly _ _⟩
    rw [reg_setReg_same, toNat_sub_eq_emod]

/-- Settles O4: the mask leaves opcode 4, and zero extension keeps the value of imm8 in the difference. -/
theorem subImmWraps : Obligations.SubImmWraps := by
  constructor
  · intro w hw
    exact decode_of_opcode4 (primaryOpcode_of_mask_f000 hw)
  · intro d imm8 s
    refine ⟨_, exec_subImm s d imm8, ?_, setReg_writesOnly _ _⟩
    rw [reg_setReg_same, toNat_sub_eq_emod, toNat_zext16]

/-- Settles O5: the mask leaves opcode 5, and the register written holds the value of imm8, which is below 2^8. -/
theorem movImmZeroExtends : Obligations.MovImmZeroExtends := by
  constructor
  · intro w hw
    exact decode_of_opcode5 (primaryOpcode_of_mask_f000 hw)
  · intro d imm8 s
    refine ⟨_, exec_movImm s d imm8, ?_, setReg_writesOnly _ _⟩
    rw [reg_setReg_same, toNat_zext16]

end Sys2Proof.Machine
end

section
/-! Word load and store: LDR and STR (R120 to R122). The primary opcode decides the instruction; both go through the effective address of
R45 and then the word access there, so they stop on the same model faults, and a load finds what a store left. -/

namespace Sys2Proof

section LoadStoreDecode
variable {w : Word}

/-- Every op-7 word is the LDR of its fields (R120). -/
theorem decode_of_opcode7 (h : primaryOpcode w = 7) :
    decode w = .ldr (regField w 8) (regField w 4) (w.extractLsb' 0 4) := by simp only [decode, h]

/-- Every op-8 word is the STR of its fields (R121). -/
theorem decode_of_opcode8 (h : primaryOpcode w = 8) :
    decode w = .str (regField w 8) (regField w 4) (w.extractLsb' 0 4) := by simp only [decode, h]

end LoadStoreDecode

end Sys2Proof

namespace Sys2Proof.Machine

section LoadStoreStops
variable {s : State} {d n a : RegIdx} {imm4 : BitVec 4} {f : Fault}

/-- When LDR's load stops, and with what. -/
theorem loadedWord_error_iff : loadedWord s a imm4 = .error f ↔ LoadStoreStop s a imm4 f := by
  constructor
  · intro h
    exact (loadedWord_error h).imp_right fun ⟨ea, he, hread⟩ => ⟨ea, he, readWord_error_iff.mp hread⟩
  · rintro (he | ⟨ea, he, hstop⟩) <;> rw [← effectiveAddress_eq] at he
    · simp only [loadedWord, he]
    · simp only [loadedWord, he, readWord_error_iff.mpr hstop]

/-- When STR's store stops, and with what. -/
theorem storedWord_error_iff : storedWord s n a imm4 = .error f ↔ LoadStoreStop s a imm4 f := by
  constructor
  · intro h
    exact (storedWord_error h).imp_right fun ⟨ea, he, hwrite⟩ => ⟨ea, he, writeWord_error_iff.mp hwrite⟩
  · rintro (he | ⟨ea, he, hstop⟩) <;> rw [← effectiveAddress_eq] at he
    · simp only [storedWord, he]
    · simp only [storedWord, he, writeWord_error_iff.mpr hstop]

/-- LDR faults as its load does (R120). -/
theorem exec_ldr_fault_iff : exec (.ldr d a imm4) s = .fault f ↔ LoadStoreStop s a imm4 f :=
  loadInto_eq_fault.trans loadedWord_error_iff

/-- STR faults as its store does (R121). -/
theorem exec_str_fault_iff : exec (.str n a imm4) s = .fault f ↔ LoadStoreStop s a imm4 f :=
  outcomeOf_eq_fault.trans storedWord_error_iff

end LoadStoreStops

section LoadStoreCompletes
variable {s t : State} {n a : RegIdx} {imm4 : BitVec 4} {ea ea' v : Word}

/-- LDR completes by writing the loaded word to its destination (R120). -/
theorem exec_ldr_of_loadedWord (d : RegIdx) (h : loadedWord s a imm4 = .ok v) :
    exec (.ldr d a imm4) s = .next (s.setReg d v) := loadInto_eq_next.mpr ⟨v, h, rfl⟩

/-- Where the word can be accessed, STR completes as the write of its register there (R121). -/
theorem exec_str_of_wordAt (he : effectiveAddress s a imm4 = .ok ea) (h : WordAt s ea ea') :
    ∃ t, exec (.str n a imm4) s = .next t ∧ writeWord s ea (s.reg n) = .ok t := by
  have hstore := storedWord_of_wordAt (n := n) he h
  obtain ⟨hlo, hnext, hhi⟩ := h
  exact ⟨_, outcomeOf_eq_next.mpr hstore, writeWord_of_writable hlo hnext hhi⟩

/-- Writing a word changes its two bytes and nothing else (R44). -/
theorem writeWord_storesOnlyAt (h' : addr16 s (ea.toNat + 1) = .ok ea') (h : writeWord s ea v = .ok t) :
    StoresOnlyAt [ea.toNat, ea'.toNat] s t := by
  obtain ⟨hregs, hcontrol⟩ := frame_of_writeWord h
  obtain ⟨b', hb', -, -, rfl⟩ := writeWord_ok h
  obtain rfl : ea' = b' := Except.ok.inj (h'.symm.trans hb')
  refine ⟨hregs, fun k hk => ?_, trace_setMem s _, hcontrol⟩
  obtain ⟨hlo, hhi⟩ : k ≠ ea.toNat ∧ k ≠ ea'.toNat := by simpa using hk
  rw [mem_setMem, Memory.read_write_ne _ _ hhi, Memory.read_write_ne _ _ hlo]

/-- The load at the address of a completed store gives the stored register: the store kept the base register, so both have the same
effective address (R45, R122). -/
theorem loadedWord_of_storedWord (hm : Memory.wf s.mem) (h : storedWord s n a imm4 = .ok t) :
    loadedWord t a imm4 = .ok (s.reg n) := by
  obtain ⟨ea, he, hwrite⟩ := storedWord_ok h
  obtain ⟨hregs, -, -, -, hp⟩ := frame_of_writeWord hwrite
  have he' : effectiveAddress t a imm4 = .ok ea := (effectiveAddress_congr hp (hregs a)).trans he
  simp only [loadedWord, he', readWord_of_writeWord hm hwrite]

end LoadStoreCompletes

/-- Settles O8: the mask leaves opcode 7, the loaded word is the join of its two bytes, and LDR stops where its load does. -/
theorem ldrLoadsLittleEndianWord : Obligations.LdrLoadsLittleEndianWord := by
  refine ⟨fun w hw => decode_of_opcode7 (primaryOpcode_of_mask_f000 hw), ?_, fun _ _ _ _ _ => exec_ldr_fault_iff⟩
  intro d a imm4 s ea ea' he hword
  refine ⟨_, exec_ldr_of_loadedWord d (loadedWord_of_wordAt he hword), ?_, setReg_writesOnly d _⟩
  rw [reg_setReg_same, toNat_joinBytes]

/-- Settles O9: the mask leaves opcode 8, the two bytes written are the halves of the register, and STR stops where its store does. -/
theorem strStoresLittleEndianWord : Obligations.StrStoresLittleEndianWord := by
  refine ⟨fun w hw => decode_of_opcode8 (primaryOpcode_of_mask_f000 hw), ?_, fun _ _ _ _ _ => exec_str_fault_iff⟩
  intro n a imm4 s ea ea' hm he hword
  obtain ⟨t, hexec, hwrite⟩ := exec_str_of_wordAt (n := n) he hword
  obtain ⟨-, hnext, -⟩ := hword
  obtain ⟨hlow, hhigh⟩ := read_of_writeWord hm hnext hwrite
  refine ⟨t, hexec, ?_, ?_, writeWord_storesOnlyAt hnext hwrite⟩
  · rw [hlow, toNat_lowByte]
  · rw [hhigh, toNat_highByte]

/-- Settles O10: the load on the state the store leaves gives the stored register. -/
theorem storedWordLoadsBack : Obligations.StoredWordLoadsBack := by
  intro n d a imm4 s t hm hstr
  have hload : loadedWord t a imm4 = .ok (s.reg n) := loadedWord_of_storedWord hm (outcomeOf_eq_next.mp hstr)
  exact ⟨_, exec_ldr_of_loadedWord d hload, reg_setReg_same t d _⟩

end Sys2Proof.Machine
end

section
/-! Logic and shifts: NAN, NOR, LSL, LSR (R130 to R134). The primary opcode decides the instruction, and its execute phase writes one
register: NAN and NOR act on each bit alone (R130, R131), and the shifts multiply and divide by a power of two (R132, R133). -/

namespace Sys2Proof

section LogicShiftDecode
variable {w : Word}

/-- Every op-9 word is the NAN of its fields (R130). -/
theorem decode_of_opcode9 (h : primaryOpcode w = 9) :
    decode w = .nan (regField w 8) (regField w 4) (regField w 0) := by simp only [decode, h]

/-- Every op-10 word is the NOR of its fields (R131). -/
theorem decode_of_opcode10 (h : primaryOpcode w = 10) :
    decode w = .nor (regField w 8) (regField w 4) (regField w 0) := by simp only [decode, h]

/-- Every op-11 word is the LSL of its fields (R132). -/
theorem decode_of_opcode11 (h : primaryOpcode w = 11) :
    decode w = .lsl (regField w 8) (regField w 4) (w.extractLsb' 0 4) := by simp only [decode, h]

/-- Every op-12 word is the LSR of its fields (R133). -/
theorem decode_of_opcode12 (h : primaryOpcode w = 12) :
    decode w = .lsr (regField w 8) (regField w 4) (w.extractLsb' 0 4) := by simp only [decode, h]

end LogicShiftDecode

end Sys2Proof

namespace Sys2Proof.Machine

section LogicShiftExec
variable (s : State) (d n m : RegIdx) (imm4 : BitVec 4)

/-- NAN completes with the complement of the conjunction (R130). -/
theorem exec_nan : exec (.nan d n m) s = .next (s.setReg d (~~~(s.reg n &&& s.reg m))) := rfl

/-- NOR completes with the complement of the disjunction (R131). -/
theorem exec_nor : exec (.nor d n m) s = .next (s.setReg d (~~~(s.reg n ||| s.reg m))) := rfl

/-- LSL shifts by one more than its field says (R132). -/
theorem exec_lsl : exec (.lsl d n imm4) s = .next (s.setReg d (s.reg n <<< shiftAmount imm4)) := rfl

/-- LSR shifts by one more than its field says (R133). -/
theorem exec_lsr : exec (.lsr d n imm4) s = .next (s.setReg d (s.reg n >>> shiftAmount imm4)) := rfl

end LogicShiftExec

section ShiftValues
variable (v : Word) (imm4 : BitVec 4)

/-- The left shift of LSL as a product: the bits shifted out are the multiples of 2^16 (R132). -/
theorem toNat_shiftLeft_shiftAmount : (v <<< shiftAmount imm4).toNat = v.toNat * 2 ^ (imm4.toNat + 1) % 65536 := by
  rw [BitVec.toNat_shiftLeft, Nat.shiftLeft_eq, shiftAmount]

/-- The right shift of LSR as a quotient (R133). -/
theorem toNat_ushiftRight_shiftAmount : (v >>> shiftAmount imm4).toNat = v.toNat / 2 ^ (imm4.toNat + 1) := by
  rw [BitVec.toNat_ushiftRight, Nat.shiftRight_eq_div_pow, shiftAmount]

variable {v imm4}

/-- Below R134's bound the product of LSL does not reach 2^16, so no bit is lost. -/
theorem mul_two_pow_lt (h : v.toNat < 2 ^ (16 - (imm4.toNat + 1))) : v.toNat * 2 ^ (imm4.toNat + 1) < 65536 := by
  have hshift : imm4.toNat + 1 ≤ 16 := imm4.isLt
  calc v.toNat * 2 ^ (imm4.toNat + 1)
      < 2 ^ (16 - (imm4.toNat + 1)) * 2 ^ (imm4.toNat + 1) := Nat.mul_lt_mul_of_pos_right h (Nat.two_pow_pos _)
    _ = 65536 := Nat.pow_sub_mul_pow 2 hshift

/-- The quotient of LSR takes back a product of LSL that lost no bit (R134). -/
theorem ushiftRight_shiftLeft_shiftAmount (h : v.toNat < 2 ^ (16 - (imm4.toNat + 1))) :
    v <<< shiftAmount imm4 >>> shiftAmount imm4 = v := by
  apply BitVec.eq_of_toNat_eq
  rw [toNat_ushiftRight_shiftAmount, toNat_shiftLeft_shiftAmount, Nat.mod_eq_of_lt (mul_two_pow_lt h),
    Nat.mul_div_cancel _ (Nat.two_pow_pos _)]

end ShiftValues

section BitwiseComplements
variable {v u : Word} {k : Nat}

/-- Each bit of the complemented conjunction is the NAND of the two bits (R130). -/
theorem getLsbD_nand (hk : k < 16) : (~~~(v &&& u)).getLsbD k = !(v.getLsbD k && u.getLsbD k) := by
  rw [BitVec.getLsbD_not, BitVec.getLsbD_and, decide_eq_true hk, Bool.true_and]

/-- Each bit of the complemented disjunction is the NOR of the two bits (R131). -/
theorem getLsbD_nor (hk : k < 16) : (~~~(v ||| u)).getLsbD k = !(v.getLsbD k || u.getLsbD k) := by
  rw [BitVec.getLsbD_not, BitVec.getLsbD_or, decide_eq_true hk, Bool.true_and]

end BitwiseComplements

/-- Settles O15: the second shift acts on what the first one left in its destination. -/
theorem shiftLeftThenRightRestores : Obligations.ShiftLeftThenRightRestores := by
  intro d d' n imm4 s hbound
  refine ⟨_, _, exec_lsl s d n imm4, exec_lsr _ d' d imm4, ?_⟩
  rw [reg_setReg_same, reg_setReg_same, ushiftRight_shiftLeft_shiftAmount hbound]

/-- Settles O11: the mask leaves opcode 9, and the register written holds the NAND of the sources bit by bit. -/
theorem nanIsBitwiseNand : Obligations.NanIsBitwiseNand := by
  constructor
  · intro w hw
    exact decode_of_opcode9 (primaryOpcode_of_mask_f000 hw)
  · intro d n m s
    refine ⟨_, exec_nan s d n m, fun k hk => ?_, setReg_writesOnly _ _⟩
    rw [reg_setReg_same, getLsbD_nand hk]

/-- Settles O12: the mask leaves opcode 10, and the register written holds the NOR of the sources bit by bit. -/
theorem norIsBitwiseNor : Obligations.NorIsBitwiseNor := by
  constructor
  · intro w hw
    exact decode_of_opcode10 (primaryOpcode_of_mask_f000 hw)
  · intro d n m s
    refine ⟨_, exec_nor s d n m, fun k hk => ?_, setReg_writesOnly _ _⟩
    rw [reg_setReg_same, getLsbD_nor hk]

/-- Settles O13: the mask leaves opcode 11, and the register written holds the left shift as a product. -/
theorem lslMultipliesModTwoPow16 : Obligations.LslMultipliesModTwoPow16 := by
  constructor
  · intro w hw
    exact decode_of_opcode11 (primaryOpcode_of_mask_f000 hw)
  · intro d n imm4 s
    refine ⟨_, exec_lsl s d n imm4, ?_, setReg_writesOnly _ _⟩
    rw [reg_setReg_same, toNat_shiftLeft_shiftAmount]

/-- Settles O14: the mask leaves opcode 12, and the register written holds the right shift as a quotient. -/
theorem lsrDividesByPowerOfTwo : Obligations.LsrDividesByPowerOfTwo := by
  constructor
  · intro w hw
    exact decode_of_opcode12 (primaryOpcode_of_mask_f000 hw)
  · intro d n imm4 s
    refine ⟨_, exec_lsr s d n imm4, ?_, setReg_writesOnly _ _⟩
    rw [reg_setReg_same, toNat_ushiftRight_shiftAmount]

end Sys2Proof.Machine
end

section
/-! The BRANCH stubs (R140 to R142). The mask of both rows keeps the primary opcode and bit 11, which are all that the decoder's choice
reads, and each execute phase is the shared stub, whatever the fields. -/

namespace Sys2Proof

section BranchDecode
variable {w v : Word}

/-- The mask of R140 and R141 keeps the primary opcode. -/
theorem primaryOpcode_of_mask_f800 (h : w &&& 0xf800 = v) : primaryOpcode w = primaryOpcode v :=
  primaryOpcode_of_mask rfl h

/-- The mask of R140 and R141 keeps bit 11. -/
theorem bit11_of_mask_f800 (h : w &&& 0xf800 = v) : w.extractLsb' 11 1 = v.extractLsb' 11 1 := field_of_mask rfl h

/-- An op-13 word with bit 11 clear is the BRANCH0 of its fields (R68, R140). -/
theorem decode_of_bit11_clear (hop : primaryOpcode w = 13) (h11 : w.extractLsb' 11 1 = 0#1) :
    decode w = .branch0 (w.extractLsb' 7 4) (regField w 3) (w.extractLsb' 0 3) := by
  rw [decode_of_opcode13 hop, decodeBranch, if_pos h11]

/-- An op-13 word with bit 11 set is the BRANCH1 of its fields (R68, R141). -/
theorem decode_of_bit11_set (hop : primaryOpcode w = 13) (h11 : w.extractLsb' 11 1 = 1#1) :
    decode w = .branch1 (w.extractLsb' 7 4) (w.extractLsb' 0 7) := by
  have hset : w.extractLsb' 11 1 ≠ 0#1 := by rw [h11]; decide
  rw [decode_of_opcode13 hop, decodeBranch, if_neg hset]

end BranchDecode

end Sys2Proof

namespace Sys2Proof.Machine

section StubOutcomes
variable {s : State}

/-- Under STUB_POLICY = nop a stub completes, and emits its event alone (R140, R141, R170). -/
theorem stubOutcome_of_nop (kind : StubKind) (h : s.params.stubPolicy = .nop) :
    ∃ t, stubOutcome kind s = .next t ∧ EmitsOnly (.unimplemented kind s.cir) s t :=
  ⟨_, by simp only [stubOutcome, h], emit_emitsOnly _⟩

/-- Under STUB_POLICY = refuse a stub is refused with the word in CIR (R140, R141, R170). -/
theorem stubOutcome_of_refuse (kind : StubKind) (h : s.params.stubPolicy = .refuse) :
    stubOutcome kind s = .refused (.stub kind s.cir) := by
  simp only [stubOutcome, h]

end StubOutcomes

section BranchExec
variable (s : State) (cond : BitVec 4)

/-- BRANCH0 is its stub for every value of its fields (R140, R142). -/
theorem exec_branch0 (a : RegIdx) (imm3 : BitVec 3) : exec (.branch0 cond a imm3) s = stubOutcome .branch0 s := rfl

/-- BRANCH1 is its stub for every value of its fields (R141, R142). -/
theorem exec_branch1 (imm7 : BitVec 7) : exec (.branch1 cond imm7) s = stubOutcome .branch1 s := rfl

end BranchExec

/-- Settles O16: the mask leaves opcode 13 with bit 11 clear, and BRANCH0 is a stub. -/
theorem branch0FollowsStubPolicy : Obligations.Branch0FollowsStubPolicy := by
  refine ⟨fun w hw => ?_, fun cond a imm3 s hnop => ?_, fun cond a imm3 s hrefuse => ?_⟩
  · exact decode_of_bit11_clear (primaryOpcode_of_mask_f800 hw) (bit11_of_mask_f800 hw)
  · rw [exec_branch0]
    exact stubOutcome_of_nop .branch0 hnop
  · rw [exec_branch0]
    exact stubOutcome_of_refuse .branch0 hrefuse

/-- Settles O17: the mask leaves opcode 13 with bit 11 set, and BRANCH1 is a stub. -/
theorem branch1FollowsStubPolicy : Obligations.Branch1FollowsStubPolicy := by
  refine ⟨fun w hw => ?_, fun cond imm7 s hnop => ?_, fun cond imm7 s hrefuse => ?_⟩
  · exact decode_of_bit11_set (primaryOpcode_of_mask_f800 hw) (bit11_of_mask_f800 hw)
  · rw [exec_branch1]
    exact stubOutcome_of_nop .branch1 hnop
  · rw [exec_branch1]
    exact stubOutcome_of_refuse .branch1 hrefuse

end Sys2Proof.Machine
end

section
/-! The two-register family, primary opcode 14 (R150 to R159). The mask of each row keeps the opcode and the slot and not bit 11; the slot's
instruction runs the operation OP14_MAP gives the slot, whichever slot that is; and of the state only an unlisted slot's refusal reads CIR. -/

namespace Sys2Proof

section TwoRegisterDecode
variable {w : Word}

/-- A word with the fixed bits of a slot's row decodes to the slot's instruction, whatever its bit 11 (R69, R150). -/
theorem decode_of_mask_f700 (slot : Fin 8) (h : w &&& 0xf700 = packTwo (BitVec.ofFin slot) 0 0) :
    decode w = twoRegister slot (regField w 4) (regField w 0) := by
  obtain ⟨hop, hslot, -⟩ := fields_packTwo (BitVec.ofFin slot) 0 0
  have hop : primaryOpcode w = 14 := (primaryOpcode_of_mask rfl h).trans (congrArg BitVec.toFin hop)
  have hslot : slotField w = slot := (slotField_of_mask rfl h).trans (congrArg BitVec.toFin hslot)
  rw [decode_of_opcode14 hop, hslot]

/-- Inverting bit 11 changes no field that bit 11 is not in. -/
theorem field_xor_0800 {lo n : Nat} (h : (0x0800 : Word).extractLsb' lo n = 0#n) :
    (w ^^^ 0x0800).extractLsb' lo n = w.extractLsb' lo n := by
  rw [BitVec.extractLsb'_xor, h, BitVec.xor_zero]

/-- An op-14 word and the same word with bit 11 inverted decode to the same instruction (R69, R157). -/
theorem decode_xor_0800 (h : primaryOpcode w = 14) : decode (w ^^^ 0x0800) = decode w := by
  have hop : primaryOpcode (w ^^^ 0x0800) = 14 := (congrArg BitVec.toFin (field_xor_0800 rfl)).trans h
  have hslot : slotField (w ^^^ 0x0800) = slotField w := congrArg BitVec.toFin (field_xor_0800 rfl)
  have hd : regField (w ^^^ 0x0800) 4 = regField w 4 := congrArg BitVec.toFin (field_xor_0800 rfl)
  have hn : regField (w ^^^ 0x0800) 0 = regField w 0 := congrArg BitVec.toFin (field_xor_0800 rfl)
  rw [decode_of_opcode14 hop, decode_of_opcode14 h, hslot, hd, hn]

end TwoRegisterDecode

end Sys2Proof

namespace Sys2Proof.Machine

section SlotOperations
variable {s : State} {slot : Fin 8} {d n : RegIdx}

/-- A slot mapped to AND (R151). -/
theorem exec_slot_and (hop : s.params.op14Map[slot] = .and) : ∃ t, exec (twoRegister slot d n) s = .next t ∧
    (∀ k, k < 16 → (t.reg d).getLsbD k = ((s.reg d).getLsbD k && (s.reg n).getLsbD k)) ∧ WritesOnlyRegister d s t := by
  refine ⟨_, (exec_twoRegister s d n slot).trans (op14Dispatch_and hop), fun k _ => ?_, setReg_writesOnly _ _⟩
  rw [reg_setReg_same, BitVec.getLsbD_and]

/-- A slot mapped to ORR (R152). -/
theorem exec_slot_orr (hop : s.params.op14Map[slot] = .orr) : ∃ t, exec (twoRegister slot d n) s = .next t ∧
    (∀ k, k < 16 → (t.reg d).getLsbD k = ((s.reg d).getLsbD k || (s.reg n).getLsbD k)) ∧ WritesOnlyRegister d s t := by
  refine ⟨_, (exec_twoRegister s d n slot).trans (op14Dispatch_orr hop), fun k _ => ?_, setReg_writesOnly _ _⟩
  rw [reg_setReg_same, BitVec.getLsbD_or]

/-- A slot mapped to XOR (R153). -/
theorem exec_slot_xor (hop : s.params.op14Map[slot] = .xor) : ∃ t, exec (twoRegister slot d n) s = .next t ∧
    (∀ k, k < 16 → (t.reg d).getLsbD k = ((s.reg d).getLsbD k ^^ (s.reg n).getLsbD k)) ∧ WritesOnlyRegister d s t := by
  refine ⟨_, (exec_twoRegister s d n slot).trans (op14Dispatch_xor hop), fun k _ => ?_, setReg_writesOnly _ _⟩
  rw [reg_setReg_same, BitVec.getLsbD_xor]

/-- A slot mapped to NOT: the state it leaves, as the double application needs it (R154). -/
theorem exec_slot_not_eq (hop : s.params.op14Map[slot] = .not) :
    exec (twoRegister slot d n) s = .next (s.setReg d (~~~(s.reg n))) :=
  (exec_twoRegister s d n slot).trans (op14Dispatch_not hop)

/-- A slot mapped to NOT: the complement of a word is what it lacks to 65535 (R154). -/
theorem exec_slot_not (hop : s.params.op14Map[slot] = .not) : ∃ t, exec (twoRegister slot d n) s = .next t ∧
    (t.reg d).toNat = 65535 - (s.reg n).toNat ∧ WritesOnlyRegister d s t := by
  refine ⟨_, exec_slot_not_eq hop, ?_, setReg_writesOnly _ _⟩
  rw [reg_setReg_same, BitVec.toNat_not]

/-- A slot mapped to LDB, its byte below MEM_SIZE (R155). -/
theorem exec_slot_ldb (hop : s.params.op14Map[slot] = .ldb) (hlt : (s.reg n).toNat < s.params.memSize) :
    ∃ t, exec (twoRegister slot d n) s = .next t ∧
      (t.reg d).toNat = (Memory.read s.mem (s.reg n).toNat).toNat ∧ WritesOnlyRegister d s t := by
  refine ⟨s.setReg d (zext16 (Memory.read s.mem (s.reg n).toNat)), ?_, ?_, setReg_writesOnly _ _⟩
  · rw [exec_twoRegister, op14Dispatch_ldb hop, loadedByte_of_lt hlt, loadInto]
  · rw [reg_setReg_same, toNat_zext16]

/-- A slot mapped to STB, its byte below MEM_SIZE: what it does to the Memory is what a host write of the byte does (R156). -/
theorem exec_slot_stb (hop : s.params.op14Map[slot] = .stb) (hm : Memory.wf s.mem) (hlt : (s.reg n).toNat < s.params.memSize) :
    ∃ t, exec (twoRegister slot d n) s = .next t ∧
      (Memory.read t.mem (s.reg n).toNat).toNat = (s.reg d).toNat % 256 ∧ StoresOnlyAt [(s.reg n).toNat] s t := by
  obtain ⟨hbyte, hframe⟩ := hostWrite_sets_byte_alone (lowByte (s.reg d)) hm hlt
  refine ⟨_, ?_, by rw [hbyte, toNat_lowByte], hframe⟩
  rw [exec_twoRegister, op14Dispatch_stb hop, wr8_of_lt hlt, hostWrite_of_lt _ hlt, outcomeOf]

/-- A slot mapped to LDB or STB, its byte at or above MEM_SIZE (R41, R155, R156). -/
theorem exec_slot_of_ge (hop : s.params.op14Map[slot] = .ldb ∨ s.params.op14Map[slot] = .stb)
    (hge : s.params.memSize ≤ (s.reg n).toNat) : exec (twoRegister slot d n) s = .fault (.memOutOfRange (s.reg n).toNat) := by
  rw [exec_twoRegister]
  obtain hldb | hstb := hop
  · rw [op14Dispatch_ldb hldb, loadInto_eq_fault, loadedByte_of_ge hge]
  · rw [op14Dispatch_stb hstb, outcomeOf_eq_fault, wr8_of_ge hge]

/-- An unlisted slot under OP14_UNLISTED = nop (R158). -/
theorem exec_slot_unlisted_nop (hop : s.params.op14Map[slot] = .unlisted) (h : s.params.op14Unlisted = .nop) :
    exec (twoRegister slot d n) s = .next s := by
  simp only [exec_twoRegister, op14Dispatch_unlisted hop, op14UnlistedOp, h]

/-- An unlisted slot under OP14_UNLISTED = refuse (R158). -/
theorem exec_slot_unlisted_refuse (hop : s.params.op14Map[slot] = .unlisted) (h : s.params.op14Unlisted = .refuse) :
    exec (twoRegister slot d n) s = .refused (.op14Unlisted s.cir) := by
  simp only [exec_twoRegister, op14Dispatch_unlisted hop, op14UnlistedOp, h]

end SlotOperations

/-- An outcome with the word `w` in CIR of its next state, or in its refusal of an unlisted op-14 slot. -/
def recir (w : Word) : Host.Outcome State Fault Refusal → Host.Outcome State Fault Refusal
  | .next t => .next (t.setCir w)
  | .fault f => .fault f
  | .refused (.op14Unlisted _) => .refused (.op14Unlisted w)
  | .refused r => .refused r

section Aliases
variable (s : State) (w : Word)

/-- Loading into a register leaves whatever word there is in CIR. -/
theorem loadInto_setCir (d : RegIdx) (y : Except Fault Word) : loadInto (s.setCir w) d y = recir w (loadInto s d y) := by
  cases y <;> rfl

/-- Writing a byte leaves whatever word there is in CIR. -/
theorem wr8_setCir (a : Word) (b : Byte) : outcomeOf (wr8 (s.setCir w) a b) = recir w (outcomeOf (wr8 s a b)) := by
  cases h : wr8 s a b with
  | ok t =>
    obtain ⟨hlt, rfl⟩ := wr8_ok h
    rw [wr8_of_lt (s := s.setCir w) hlt]
    rfl
  | error f =>
    obtain ⟨rfl, hge⟩ := wr8_error h
    rw [wr8_of_ge (s := s.setCir w) hge]
    rfl

/-- An op-14 slot run with another word in CIR: the same outcome, but for that word (R150, R158). -/
theorem op14Dispatch_setCir (slot : Fin 8) (d n : RegIdx) :
    op14Dispatch slot d n (s.setCir w) = recir w (op14Dispatch slot d n s) := by
  simp only [op14Dispatch, params_setCir]
  cases s.params.op14Map[slot] with
  | and | orr | xor | not => rfl
  | ldb => exact loadInto_setCir s w d (loadedByte s n)
  | stb => exact wr8_setCir s w (s.reg n) (lowByte (s.reg d))
  | unlisted =>
    simp only [op14UnlistedOp, params_setCir]
    cases s.params.op14Unlisted <;> rfl

variable {w}

/-- Executing an op-14 word is dispatching on its slot (R69, R150). -/
theorem execute_of_opcode14 (h : primaryOpcode w = 14) :
    execute (s.setCir w) = op14Dispatch (slotField w) (regField w 4) (regField w 0) (s.setCir w) := by
  rw [execute, cir_setCir, decode_of_opcode14 h, exec_twoRegister]

/-- Executing an op-14 word with bit 11 inverted: the outcome of the word itself, but for the word in it (R157). -/
theorem execute_xor_0800 (h : primaryOpcode w = 14) :
    execute (s.setCir (w ^^^ 0x0800)) = recir (w ^^^ 0x0800) (execute (s.setCir w)) := by
  calc execute (s.setCir (w ^^^ 0x0800))
    _ = op14Dispatch (slotField w) (regField w 4) (regField w 0) ((s.setCir w).setCir (w ^^^ 0x0800)) := by
      rw [execute, cir_setCir, decode_xor_0800 h, decode_of_opcode14 h, exec_twoRegister]
      rfl
    _ = recir (w ^^^ 0x0800) (op14Dispatch (slotField w) (regField w 4) (regField w 0) (s.setCir w)) := op14Dispatch_setCir _ _ _ _ _
    _ = recir (w ^^^ 0x0800) (execute (s.setCir w)) := by rw [execute_of_opcode14 s h]

end Aliases

/-- Settles O26: the lemma of each operation, at whichever slot it stands. -/
theorem op14SlotRunsMappedOperation : Obligations.Op14SlotRunsMappedOperation :=
  ⟨fun _ => decode_of_opcode14, fun _ _ _ _ => ⟨exec_slot_and, exec_slot_orr, exec_slot_xor, exec_slot_not, exec_slot_ldb, exec_slot_stb,
    exec_slot_of_ge, exec_slot_unlisted_nop, exec_slot_unlisted_refuse⟩⟩

/-- Settles O27: both words decode to the same instruction, and of an op-14 slot's outcome only the word in it depends on CIR. -/
theorem op14AliasesHaveSameEffect : Obligations.Op14AliasesHaveSameEffect := by
  intro w s h14
  rw [execute_xor_0800 s h14]
  refine ⟨fun t h => by rw [h, recir], fun f h => by rw [h, recir], fun r h => ?_⟩
  obtain ⟨-, -, rfl⟩ := op14Dispatch_refused ((execute_of_opcode14 s h14).symm.trans h)
  exact ⟨rfl, by rw [h, recir]⟩

/-- Settles O28: STB keeps the address register, and the byte at its address is the one STB wrote. -/
theorem storedByteLoadsBack : Obligations.StoredByteLoadsBack := by
  intro stbSlot ldbSlot d e n s t hstb hldb hm h
  obtain ⟨hlt, ht⟩ := exec_stb_next hstb h
  have hp : t.params = s.params := by rw [ht, params_setMem]
  have hreg : t.reg n = s.reg n := by rw [ht, reg_setMem]
  have hread : Memory.read t.mem (s.reg n).toNat = lowByte (s.reg d) := by
    rw [ht, mem_setMem, Memory.read_write_same hm.1]
  rw [← hp] at hldb
  rw [← hp, ← hreg] at hlt
  obtain ⟨u, hu, hval⟩ := exec_ldb_of_lt (d := e) hldb hlt
  exact ⟨u, hu, by rw [hval, hreg, hread, toNat_lowByte]⟩

/-- Settles O22: the mask leaves slot 3; the second NOT acts on what the first one left in its destination. -/
theorem notComplementsAndIsInvolutive : Obligations.NotComplementsAndIsInvolutive := by
  refine ⟨fun _ => decode_of_mask_f700 3, fun _ _ _ => exec_slot_not (slot := 3), fun d e n s hop => ?_⟩
  refine ⟨_, _, exec_slot_not_eq (slot := 3) hop, exec_slot_not_eq (slot := 3) hop, ?_⟩
  rw [reg_setReg_same, reg_setReg_same, BitVec.not_not]

/-- Settles O23: the mask leaves slot 4, which runs LDB on either side of MEM_SIZE. -/
theorem ldbLoadsZeroExtendedByte : Obligations.LdbLoadsZeroExtendedByte :=
  ⟨fun _ => decode_of_mask_f700 4, fun _ _ _ => exec_slot_ldb (slot := 4), fun _ _ _ hop => exec_slot_of_ge (slot := 4) (.inl hop)⟩

/-- Settles O24: the mask leaves slot 5, which runs STB on either side of MEM_SIZE. -/
theorem stbStoresLowByte : Obligations.StbStoresLowByte :=
  ⟨fun _ => decode_of_mask_f700 5, fun _ _ _ => exec_slot_stb (slot := 5), fun _ _ _ hop => exec_slot_of_ge (slot := 5) (.inr hop)⟩

/-- Settles O19: the mask leaves slot 0, which runs AND. -/
theorem andIsBitwiseAnd : Obligations.AndIsBitwiseAnd :=
  ⟨fun _ => decode_of_mask_f700 0, fun _ _ _ => exec_slot_and (slot := 0)⟩

/-- Settles O20: the mask leaves slot 1, which runs ORR. -/
theorem orrIsBitwiseOr : Obligations.OrrIsBitwiseOr :=
  ⟨fun _ => decode_of_mask_f700 1, fun _ _ _ => exec_slot_orr (slot := 1)⟩

/-- Settles O21: the mask leaves slot 2, which runs XOR. -/
theorem xorIsBitwiseXor : Obligations.XorIsBitwiseXor :=
  ⟨fun _ => decode_of_mask_f700 2, fun _ _ _ => exec_slot_xor (slot := 2)⟩

/-- Settles O25: the mask leaves slot 6 or 7, which unlisted follow OP14_UNLISTED. -/
theorem unlistedSlotsFollowPolicy : Obligations.UnlistedSlotsFollowPolicy := by
  refine ⟨fun w => ⟨decode_of_mask_f700 6, decode_of_mask_f700 7⟩, fun d n s hop => ?_, fun d n s hop => ?_⟩
  · exact ⟨exec_slot_unlisted_nop (slot := 6) hop, exec_slot_unlisted_refuse (slot := 6) hop⟩
  · exact ⟨exec_slot_unlisted_nop (slot := 7) hop, exec_slot_unlisted_refuse (slot := 7) hop⟩

end Sys2Proof.Machine
end

section
/-! INT and the stops (R170, R181, R183): INT is the stub of opcode 15, each stop of the execute phase is one of those the spec lists for
its instruction, and a stop leaves a mark after which no step is taken. -/

namespace Sys2Proof

section IntDecode
variable {w : Word}

/-- Every op-15 word is the INT of its fields (R70, R170). -/
theorem decode_of_opcode15 (h : primaryOpcode w = 15) : decode w = .int (w.extractLsb' 8 4) (w.extractLsb' 0 8) := by
  simp only [decode, h]

end IntDecode

end Sys2Proof

namespace Sys2Proof.Machine

/-- INT is its stub for every value of its fields (R170). -/
theorem exec_int (s : State) (cond : BitVec 4) (index : BitVec 8) : exec (.int cond index) s = stubOutcome .int s := rfl

/-- The values a model fault of a memory access can carry in a state: a 16-bit address at or above MEM_SIZE, or an address above 0xFFFF
under ADDR_OVERFLOW = fault (R41, R42). -/
def AccessFault (s : State) : Fault → Prop
  | .memOutOfRange a => s.params.memSize ≤ a ∧ a < 65536
  | .addrOverflow a => s.params.addrOverflow = .fault ∧ 65535 < a

section StopCauses
variable {s : State} {i : Instr} {a : RegIdx} {imm4 : BitVec 4} {f : Fault} {r : Refusal}

/-- Forming an address faults only where the address overflows (R42). -/
theorem accessFault_of_addr16 {b : Nat} (h : addr16 s b = .error f) : AccessFault s f := by
  obtain ⟨rfl, hover, hpolicy⟩ := addr16_error h
  exact ⟨hpolicy, hover⟩

/-- The fault on which a word access stops (R43, R44). -/
theorem WordStop.accessFault {ea : Word} (h : WordStop s ea f) : AccessFault s f := by
  obtain ⟨hlow, rfl⟩ | ⟨-, haddr⟩ | ⟨-, ea', -, hhigh, rfl⟩ := h
  · exact ⟨hlow, ea.isLt⟩
  · exact accessFault_of_addr16 haddr
  · exact ⟨hhigh, ea'.isLt⟩

/-- The fault on which LDR or STR stops (R120, R121). -/
theorem LoadStoreStop.accessFault (h : LoadStoreStop s a imm4 f) : AccessFault s f := by
  obtain haddr | ⟨_, -, hstop⟩ := h
  · exact accessFault_of_addr16 haddr
  · exact hstop.accessFault

/-- An instruction outside the two-register family refuses only as one of the three stubs (R140, R141, R170). -/
theorem exec_refused_of_slot_none (hs : Instr.slot i = none) (h : exec i s = .refused r) :
    s.params.stubPolicy = .refuse ∧
      ((∃ cond a imm3, i = .branch0 cond a imm3 ∧ r = .stub .branch0 s.cir) ∨
        (∃ cond imm7, i = .branch1 cond imm7 ∧ r = .stub .branch1 s.cir) ∨
        ∃ cond index, i = .int cond index ∧ r = .stub .int s.cir) := by
  cases i with
  | branch0 cond a imm3 =>
    obtain ⟨hpolicy, hr⟩ := stubOutcome_refused h
    exact ⟨hpolicy, .inl ⟨cond, a, imm3, rfl, hr⟩⟩
  | branch1 cond imm7 =>
    obtain ⟨hpolicy, hr⟩ := stubOutcome_refused h
    exact ⟨hpolicy, .inr (.inl ⟨cond, imm7, rfl, hr⟩)⟩
  | int cond index =>
    obtain ⟨hpolicy, hr⟩ := stubOutcome_refused h
    exact ⟨hpolicy, .inr (.inr ⟨cond, index, rfl, hr⟩)⟩
  | ldr => exact absurd h loadInto_ne_refused
  | str => exact absurd h outcomeOf_ne_refused
  | stp | addRR | addImm | subRR | subImm | movImm | cmpImm | nan | nor | lsl | lsr => cases h
  | and | orr | xor | not | ldb | stb | op14Slot6 | op14Slot7 => cases hs

end StopCauses

section StoppedExecute
variable {s : State} {n a : RegIdx} {imm4 : BitVec 4} {ea : Word} {f : Fault}

/-- EXECUTE of an instruction that faults: the state it had reached, marked with the fault (R181). -/
theorem requestExecute_of_fault (hs : s.status = .running) (h : exec (decode s.cir) s = .fault f) :
    requestExecute s = (executeAtStop s).setStatus (.faulted f) := by
  rw [requestExecute_of_running hs, execute, h, markOutcome]

/-- A word write whose low byte is in range has that byte stored when it stops, as a host write of it would (R183). -/
theorem writeWordAtStop_of_lt (v : Word) (h : ea.toNat < s.params.memSize) :
    writeWordAtStop s ea v = hostWrite s ea.toNat (lowByte v) := by
  simp only [writeWordAtStop, wr8_of_lt h, hostWrite_of_lt _ h]

/-- STR with its effective address in range has stored its low byte there when it stops (R121, R183). -/
theorem executeAtStop_of_str (hi : decode s.cir = .str n a imm4) (he : effectiveAddress s a imm4 = .ok ea)
    (h : ea.toNat < s.params.memSize) : executeAtStop s = hostWrite s ea.toNat (lowByte (s.reg n)) := by
  simp only [executeAtStop, hi, storedWordAtStop, he, writeWordAtStop_of_lt _ h]

end StoppedExecute

section Marked
variable {s : State}

/-- A faulted state answers a step with its fault (R181, log 7). -/
theorem step_of_faulted {f : Fault} (h : s.status = .faulted f) : step s = .fault f := by
  simp only [step, cycleIfRunning, h]

/-- A refused state answers a step with its refusal (R181, log 7). -/
theorem step_of_refused {r : Refusal} (h : s.status = .refused r) : step s = .refused r := by
  simp only [step, cycleIfRunning, h]

/-- A marked state takes neither request (R8, R181). -/
theorem requests_of_ne_running (h : s.status ≠ .running) : requestFetch s = s ∧ requestExecute s = s :=
  ⟨requestFetch_of_ne_running h, requestExecute_of_ne_running h⟩

end Marked

/-- Settles O45: the inversion of a refusal of an op-14 slot, and of a refusal of any other instruction. -/
theorem refusalsAreTheTwoListed : Obligations.RefusalsAreTheTwoListed := by
  intro i s r h
  cases hs : Instr.slot i with
  | some slot =>
    obtain ⟨d, n, rfl⟩ := eq_twoRegister_of_slot hs
    rw [exec_twoRegister] at h
    obtain ⟨hop, hpolicy, hr⟩ := op14Dispatch_refused h
    exact .inl ⟨hr, hpolicy, slot, d, n, rfl, hop⟩
  | none => exact .inr (exec_refused_of_slot_none hs h)

/-- Settles O46: a fault is a stop of LDR's or STR's access, whose fault is one of the two, or an op-14 byte access out of range. -/
theorem faultsAreTheTwoListed : Obligations.FaultsAreTheTwoListed := by
  intro i s f h
  obtain ⟨d, a, imm4, hi, hstop⟩ | ⟨slot, d, n, hi, hop, hge, rfl⟩ := exec_fault h
  · have hf : AccessFault s f := hstop.accessFault
    cases f with
    | memOutOfRange b =>
      obtain ⟨hge, hlt⟩ := hf
      exact .inl ⟨b, rfl, hge, hlt, .inl ⟨d, a, imm4, hi⟩⟩
    | addrOverflow b =>
      obtain ⟨hpolicy, hover⟩ := hf
      exact .inr ⟨b, rfl, hpolicy, hover, d, a, imm4, hi⟩
  · exact .inl ⟨(s.reg n).toNat, rfl, hge, (s.reg n).isLt, .inr ⟨slot, d, n, hi, hop⟩⟩

/-- Settles O59: the stopped STR has written its low byte as a host write does, and the mark touches no byte. -/
theorem stoppedStrKeepsItsLowByte : Obligations.StoppedStrKeepsItsLowByte := by
  intro s n a imm4 ea f hs hm hi he hlt hfault
  obtain ⟨hbyte, -, hframe, -⟩ := hostWrite_sets_byte_alone (lowByte (s.reg n)) hm hlt
  rw [requestExecute_of_fault hs (hi ▸ hfault), executeAtStop_of_str hi he hlt]
  refine ⟨status_setStatus _ _, ?_, hframe⟩
  rw [mem_setStatus, hbyte, toNat_lowByte]

/-- Settles O18: the mask leaves opcode 15, and INT is a stub. -/
theorem intFollowsStubPolicy : Obligations.IntFollowsStubPolicy := by
  refine ⟨fun w hw => decode_of_opcode15 (primaryOpcode_of_mask_f000 hw), fun cond index s hnop => ?_, fun cond index s hrefuse => ?_⟩
  · rw [exec_int]
    exact stubOutcome_of_nop .int hnop
  · rw [exec_int]
    exact stubOutcome_of_refuse .int hrefuse

/-- Settles O47: the step answers the mark, and neither mark is `running`, so no request is taken. -/
theorem markedStateTakesNoStep : Obligations.MarkedStateTakesNoStep := by
  refine ⟨fun s f h => ?_, fun s r h => ?_⟩
  · have hmarked : s.status ≠ .running := by rw [h]; exact nofun
    exact ⟨step_of_faulted h, requests_of_ne_running hmarked⟩
  · have hmarked : s.status ≠ .running := by rw [h]; exact nofun
    exact ⟨step_of_refused h, requests_of_ne_running hmarked⟩

end Sys2Proof.Machine
end
